-- ==== Sys2Proof/Word.lean ====
section
/-! DEFINITION. The two value types of the CORE: the byte and the word (spec 00_scope.md, Notation).
Both are unsigned bit vectors; every word operation wraps modulo 2^32. -/

namespace Sys2Proof

/-- An unsigned 8-bit value: an instruction-stream byte, a memory byte, a port index. -/
abbrev Byte := BitVec 8

/-- An unsigned 32-bit value: a register, a port, a call-stack entry, an address. -/
abbrev Word := BitVec 32

end Sys2Proof
end

