-- ==== Sys2Proof/Config.lean ====
section
/-! DEFINITION. The implementation parameters of rule R5 and the free value of rules R144 and R145.
`MEM_INIT` is no field here: it is the memory a machine starts with (rule R230). -/

namespace Sys2Proof

/-- The parameters of one CORE instance (rule R5). A machine's `Config` stands in its state and no
step changes it, so a statement about every state is a statement about every configuration. -/
structure Config where
  /-- `MEM_LOG2`, 0 to 32: the bound buffer has `2^MEM_LOG2` bytes. -/
  memLog2 : Fin 33
  /-- `STACK_DEPTH`, the capacity of the call stack; positive in every legal configuration. -/
  stackDepth : Nat
  /-- `SENSE_PRESENT`: a sense hook is attached. -/
  sensePresent : Bool
  /-- `EMIT_PRESENT`: an emit hook is attached. -/
  emitPresent : Bool
deriving DecidableEq, Repr, Inhabited

/-- `MEM_SIZE = 2^MEM_LOG2` (rule R5). -/
def Config.memSize (c : Config) : Nat := 2 ^ c.memLog2.val

/-- The configuration of `State.reset`, the conventions of 95_test_vectors.md: 256 bytes of memory,
256 call-stack entries (the spec's default), no hooks. DESIGN CHOICE, log 1, 2 and 3. -/
def Config.default : Config :=
  { memLog2 := 8, stackDepth := 256, sensePresent := false, emitPresent := false }

/-- The port bank: 256 words (rule R31). -/
abbrev Ports := Vector Word 256

/-- Which hook a transaction of the I/O port interface calls (rules R144, R145). -/
inductive HookKind where
  | sense
  | emit
deriving DecidableEq, Repr, Inhabited

/-- One transaction from the CORE to the host: the hook called, the port index sent, and the port
bank the host then sees (rules R144, R145). -/
structure HookCall where
  kind  : HookKind
  port  : Byte
  ports : Ports
deriving DecidableEq, Repr

/-- What the host does with one hook call (rules R144, R147, R214, R217). -/
inductive HookAnswer where
  /-- The hook returns, leaving the port bank as given (rule R144 (a)). -/
  | returns (ports : Ports)
  /-- The host ends the run inside the hook (rule R144 (b), rule R214). -/
  | terminates
  /-- The hook never returns (rule R92 (4), rule R147). -/
  | neverReturns
  /-- The host breaks a duty of rule R217: it re-enters the CORE or touches more than the ports. -/
  | breaksDuty
deriving DecidableEq, Repr, Inhabited

/-- FREE VALUE (log 6). The host's answer to the newest of the calls made so far, when no answer is
already fixed in the state. It has no body: a claim holds whatever the host answers. -/
opaque Config.hookAnswer : List HookCall → HookAnswer

end Sys2Proof
end

