-- ==== Sys2Proof/Machine/State.lean ====
section
/-! DEFINITION. The state of the CORE (spec 10_state.md), the reasons a step can stop, and the state
after INIT. The operations over it stand in `Machine/Ops.lean`. -/

namespace Sys2Proof.Machine

/-- Memory: (address, byte) pairs, addresses strictly rising, no entry equal to what an unlisted
address reads as (`Memory.wf`, `Memory.unlisted` in `Machine/Ops.lean`). -/
abbrev Memory := List Host.Cell

/-- The status codes (rules R27, R200). Code 7 is never written (I16), so it is no constructor. -/
inductive StatusCode where
  | noFault
  | bounds
  | invalidOpcode
  | division
  | stackOverflow
  | stackUnderflow
  | invalidProgram
deriving DecidableEq, Repr, Inhabited

/-- The state of one CORE. -/
structure State where
  /-- The instance's parameters (rules R5, R34); no step changes them. -/
  cfg : Config
  /-- The register file `x[0..127]` (rule R20); `x[0x2E]` is the PC (rule R24). -/
  regs : Vector Word 128
  /-- The halted flag (rule R27). -/
  halted : Bool
  /-- The status code (rule R27). -/
  code : StatusCode
  /-- The call-stack entries `stack[0..STACK_DEPTH-1]`, live and dead (rules R30, R33). -/
  stack : List Word
  /-- The call-stack depth counter (rule R30). -/
  depth : Nat
  /-- The port bank `port[0..255]` (rule R31). -/
  ports : Ports
  /-- The bound memory buffer (rule R32). -/
  mem : Memory
  /-- The host ended the run inside a hook (rules R214, R216 (c)); log 8. -/
  hostTerminated : Bool
  /-- The model's own field: the hook calls made so far, newest first; log 7. -/
  hookCalls : List HookCall
  /-- The model's own field: the host's answers already fixed for the coming hook calls, the next
  one first. Once it is empty an answer is the free value `Config.hookAnswer`; log 6. -/
  hostAnswers : List HookAnswer
deriving DecidableEq, Repr

/-- Why a step can end in no state. The six faults of rule R200 are no case of it: they are states
(`halted` set, the code recorded). -/
inductive Fault where
  /-- Raised by IN and OUT when the hook they call never returns: the CORE stays inside that STEP for
  ever (rules R92 (4), R147). Safe: the model stops where the hardware never goes on. Log 9. -/
  | hookNeverReturns
deriving DecidableEq, Repr

/-- What the model gives no meaning to. -/
inductive Refusal where
  /-- Raised by `exec` for an instruction without a meaning (none is left). Safe. -/
  | notModelled (mnemonic : String)
  /-- Raised by IN and OUT when the host re-enters the CORE from the hook, or touches more than the
  port bank: a run outside the spec, which a model refuses (rules R147, R217). Safe. Log 10. -/
  | hookBreaksDuty
  /-- Raised by the INIT command for a buffer whose size is no power of two up to 2^32
  (rule R230, decision D19). Safe. Log 16. -/
  | badBufferSize
deriving DecidableEq, Repr

/-- The state INIT leaves (rules R230, R233): registers, ports, depth and status clear, memory as
supplied. The call-stack entries, which the spec leaves unspecified, are 0 (log 5). -/
def State.initial (cfg : Config) (mem : Memory) : State :=
  { cfg := cfg
    regs := Vector.replicate 128 0
    halted := false
    code := .noFault
    stack := List.replicate cfg.stackDepth 0
    depth := 0
    ports := Vector.replicate 256 0
    mem := mem
    hostTerminated := false
    hookCalls := []
    hostAnswers := [] }

/-- The machine right after INIT with the parameters of `Config.default` (log 1, 2, 3) and a buffer
of zero bytes (log 4). -/
def State.reset : State := State.initial Config.default []

end Sys2Proof.Machine
end

