-- ==== Sys2Proof/Machine/Ops.lean ====
section
/-! DEFINITION. The named operations over registers, memory, the call stack, the status and the hooks.
Every meaning is written over them. -/

namespace Sys2Proof.Machine

/-! ## Registers (rules R20 to R25) -/

/-- The register an operand byte names: `reg(b) = b mod 128` (rule R21). -/
def reg (b : Byte) : Fin 128 := ⟨b.toNat % 128, Nat.mod_lt _ (by decide)⟩

/-- The register `'.'`, the program counter (rule R24). -/
def pcReg : Fin 128 := 0x2E

/-- The value of register `r` (rule R23: none is hard-wired). -/
def State.getReg (s : State) (r : Fin 128) : Word := s.regs[r]

/-- Write register `r` (rule R23). -/
def State.setReg (s : State) (r : Fin 128) (v : Word) : State := { s with regs := s.regs.set r v }

/-- The program counter, register `x[0x2E]` (rule R24). -/
def State.pc (s : State) : Word := s.getReg pcReg

/-- Write the program counter: `x[0x2E] <- target` (rule R25). -/
def State.setPc (s : State) (target : Word) : State := s.setReg pcReg target

/-- The value of the register an operand byte names. -/
def State.x (s : State) (b : Byte) : Word := s.getReg (reg b)

/-- Write the register an operand byte names. -/
def State.setX (s : State) (b : Byte) (v : Word) : State := s.setReg (reg b) v

/-! ## Memory (rules R40 to R46) -/

/-- What a byte that no write has listed reads as: a byte of the buffer supplied at INIT, which the
spec leaves to the caller. DESIGN CHOICE, log 4. -/
def Memory.unlisted : Byte := 0

/-- The byte at an address. -/
def Memory.read : Memory → Nat → Byte
  | [], _ => Memory.unlisted
  | (k, v) :: m, a => if k = a then v else Memory.read m a

/-- Write the byte at an address, keeping the canonical form. -/
def Memory.write : Memory → Nat → Byte → Memory
  | [], a, b => if b = Memory.unlisted then [] else [(a, b)]
  | (k, v) :: m, a, b =>
    if a < k then if b = Memory.unlisted then (k, v) :: m else (a, b) :: (k, v) :: m
    else if a = k then if b = Memory.unlisted then m else (a, b) :: m
    else (k, v) :: Memory.write m a b

/-- Write bytes at increasing addresses from `a` on. -/
def Memory.writeBytes : Memory → Nat → List Byte → Memory
  | m, _, [] => m
  | m, a, b :: bs => Memory.writeBytes (Memory.write m a b) (a + 1) bs

/-- The canonical form: addresses strictly rising, and no entry equal to what an unlisted address
reads as. -/
abbrev Memory.wf (m : Memory) : Prop :=
  m.Pairwise (fun c d => c.1 < d.1) ∧ ∀ c ∈ m, c.2 ≠ Memory.unlisted

/-- `MEM_SIZE` (rule R5). -/
def State.memSize (s : State) : Nat := s.cfg.memSize

/-- The wraparound unit: `wrap(a) = a & MASK` with `MASK = MEM_SIZE - 1` (rule R41). -/
def State.wrap (s : State) (a : Word) : Nat := a.toNat &&& (s.memSize - 1)

/-- `MemRead(addr, 1)` (rule R45). -/
def State.memRead (s : State) (a : Word) : Byte := s.mem.read (s.wrap a)

/-- `MemWrite(addr, 1, v)` (rule R45). -/
def State.memWrite (s : State) (a : Word) (v : Byte) : State :=
  { s with mem := s.mem.write (s.wrap a) v }

/-! ## Ports (rules R31, R49) -/

/-- Port `q`. -/
def State.getPort (s : State) (q : Byte) : Word := s.ports[q.toNat]'q.isLt

/-- Write port `q`. -/
def State.setPort (s : State) (q : Byte) (v : Word) : State :=
  { s with ports := s.ports.set q.toNat v q.isLt }

/-! ## Status and faults (rules R27, R201) -/

/-- The number of a status code (rules R27, R200; decision D15). -/
def StatusCode.toBits : StatusCode → BitVec 3
  | .noFault => 0
  | .bounds => 1
  | .invalidOpcode => 2
  | .division => 3
  | .stackOverflow => 4
  | .stackUnderflow => 5
  | .invalidProgram => 6

/-- `raise Fault(C)` (rule R201): the CORE halts and records the code, and nothing else changes. No
state is saved and control goes nowhere (rules R202, R203); only INIT, LOAD and RESET leave the
halted state (rule R206), so there is no return from a fault. -/
def raiseFault (c : StatusCode) (s : State) : State := { s with halted := true, code := c }

/-- The clean halt of HALT: halted, the code as it stands (rule R190). -/
def State.halt (s : State) : State := { s with halted := true }

/-- The status INIT, LOAD and RESET leave: running, code `NONE` (rules R206, R231, R232), and no run that
the host has ended (log 8). -/
def State.restart (s : State) : State :=
  { s with halted := false, code := .noFault, hostTerminated := false }

/-! ## Call stack (rules R30, R164, R165) -/

/-- The call stack holds `STACK_DEPTH` entries. -/
def State.stackFull (s : State) : Bool := s.cfg.stackDepth ≤ s.depth

/-- `stack[i]`. -/
def State.stackEntry (s : State) (i : Nat) : Word := s.stack.getD i 0

/-- `stack[depth] <- v; depth <- depth + 1`. -/
def State.push (s : State) (v : Word) : State :=
  { s with stack := s.stack.set s.depth v, depth := s.depth + 1 }

/-- `depth <- depth - 1`; the entry above it stays as it is. -/
def State.pop (s : State) : State := { s with depth := s.depth - 1 }

/-! ## The block scan (rule R168) -/

/-- The close marker's opcode byte `}` (rule R168). -/
def closeByte : Byte := 0x7D

/-- The scan of rule R168 from cursor `c`, for at most `fuel` cursor positions: the first position
that holds the close marker's byte and then the raw label byte. It reads memory directly, does not
wrap, and stops before the end of memory. -/
def scanFrom (m : Memory) (size : Nat) (l : Byte) : Nat → Nat → Option Nat
  | 0, _ => none
  | fuel + 1, c =>
    if c + 1 < size then
      if m.read c = closeByte ∧ m.read (c + 1) = l then some c else scanFrom m size l fuel (c + 1)
    else none

/-- `Scan(from, l)` (rule R168). There are `MEM_SIZE - from` cursor positions at most. -/
def State.scan (s : State) (start : Nat) (l : Byte) : Option Nat :=
  scanFrom s.mem s.memSize l (s.memSize - start) start

/-! ## The I/O port interface (rules R144 to R147, R214) -/

/-- The host's answer to the newest call: the next answer already fixed in the state, else the free
value (log 6). -/
def State.hookAnswer (s : State) (calls : List HookCall) : HookAnswer :=
  match s.hostAnswers with
  | a :: _ => a
  | [] => Config.hookAnswer calls

/-- The calls made, once the hook `k` is called for port `q`. -/
def State.callsAfter (s : State) (k : HookKind) (q : Byte) : List HookCall :=
  { kind := k, port := q, ports := s.ports } :: s.hookCalls

/-- The transaction is made: it is recorded and its answer used up. -/
def State.afterCall (s : State) (k : HookKind) (q : Byte) : State :=
  { s with hookCalls := s.callsAfter k q, hostAnswers := s.hostAnswers.tail }

/-- The port bank as the host left it (rule R144 (a)). -/
def State.setPorts (s : State) (bank : Ports) : State := { s with ports := bank }

/-- The host ended the run: the state as it stood at the call (rule R214). -/
def State.terminate (s : State) : State := { s with hostTerminated := true }

/-- `Sense(q)` and `Emit(q)` (rules R144, R145): the transaction, then `k` from the state the hook
left. -/
def callHook (kind : HookKind) (q : Byte) (s : State)
    (k : State → Host.Outcome State Fault Refusal) : Host.Outcome State Fault Refusal :=
  match s.hookAnswer (s.callsAfter kind q) with
  | .returns bank => k ((s.afterCall kind q).setPorts bank)
  | .terminates => .next (s.afterCall kind q).terminate
  | .neverReturns => .fault .hookNeverReturns
  | .breaksDuty => .refused .hookBreaksDuty

/-- A STEP does nothing on this machine: it is halted (rule R83) or its run was ended by the host
(rule R214). -/
def State.stopped (s : State) : Bool := s.halted || s.hostTerminated

end Sys2Proof.Machine
end

