-- ==== Sys2Proof/Machine/Operands.lean ====
section
/-! DEFINITION. The operand forms (spec 30_encoding.md R62, R66 to R68): what an operand byte, or the
register it names, stands for. -/

namespace Sys2Proof.Machine

/-- A word of a byte, zero-extended (`zext_32`). -/
def zext (b : Byte) : Word := b.setWidth 32

/-- Bits 7:0 of a word (rules R49, R141). -/
def lowByte (v : Word) : Byte := v.setWidth 8

/-- The port index a register operand gives: `x[r] & 0xFF` (rule R49). -/
def State.portIndex (s : State) (p : Byte) : Byte := lowByte (s.x p)

/-- The value of a decimal digit payload, LI mode `d` (rules R68, R122). -/
def decimalDigit (v : Byte) : Option Word :=
  if 0x30 ≤ v ∧ v ≤ 0x39 then some (zext (v - 0x30)) else none

/-- The value of a hexadecimal digit payload, LI mode `x` (rules R68, R123). -/
def hexDigit (v : Byte) : Option Word :=
  if 0x30 ≤ v ∧ v ≤ 0x39 then some (zext (v - 0x30))
  else if 0x61 ≤ v ∧ v ≤ 0x66 then some (zext (v - 0x57))
  else if 0x41 ≤ v ∧ v ≤ 0x46 then some (zext (v - 0x37))
  else none

/-- `v3 ‖ v2 ‖ v1 ‖ v0`, the little-endian payload of LI mode `w` (rules R47, R68, R124). -/
def littleEndian (v0 v1 v2 v3 : Byte) : Word := v3 ++ v2 ++ v1 ++ v0

/-- The register copy through memory of LI mode `i` (rule R126): the byte at the address in `x[s]`
names the source register. -/
def State.indirect (s : State) (b : Byte) : Word := s.x (s.memRead (s.x b))

end Sys2Proof.Machine
end

