-- ==== Sys2Proof/Machine/Arithmetic.lean ====
section
/-! DEFINITION. The arithmetic instructions (spec 41_arith_bitwise.md R100 to R105). The state is the one
after the decode phase: the PC is past the instruction. -/

namespace Sys2Proof.Machine

/-- `Decode3()`'s read and the write of a total three-operand instruction (rule R100). -/
def threeReg (f : Word → Word → Word) (d a b : Byte) (s : State) : Host.Outcome State Fault Refusal :=
  .next (s.setX d (f (s.x a) (s.x b)))

/-- A three-operand division: `DIVISION` when the divisor is 0, with the destination unwritten
(rules R104, R105). -/
def divisionReg (f : Word → Word → Word) (d a b : Byte) (s : State) :
    Host.Outcome State Fault Refusal :=
  if s.x b = 0 then .next (raiseFault .division s) else threeReg f d a b s

/-- ADD (rule R101). -/
def execAdd (d a b : Byte) (s : State) : Host.Outcome State Fault Refusal :=
  threeReg (fun va vb => va + vb) d a b s

/-- SUB (rule R102). -/
def execSub (d a b : Byte) (s : State) : Host.Outcome State Fault Refusal :=
  threeReg (fun va vb => va - vb) d a b s

/-- MUL, the low 32 bits (rule R103). -/
def execMul (d a b : Byte) (s : State) : Host.Outcome State Fault Refusal :=
  threeReg (fun va vb => va * vb) d a b s

/-- DIV, unsigned floor division (rule R104). -/
def execDiv (d a b : Byte) (s : State) : Host.Outcome State Fault Refusal :=
  divisionReg (fun va vb => va.udiv vb) d a b s

/-- MOD, unsigned remainder (rule R105). -/
def execMod (d a b : Byte) (s : State) : Host.Outcome State Fault Refusal :=
  divisionReg (fun va vb => va.umod vb) d a b s

end Sys2Proof.Machine
end

