-- ==== Sys2Proof/Machine/Bitwise.lean ====
section
/-! DEFINITION. The bitwise instructions (spec 41_arith_bitwise.md R106 to R111). -/

namespace Sys2Proof.Machine

/-- AND (rule R106). -/
def execAnd (d a b : Byte) (s : State) : Host.Outcome State Fault Refusal :=
  threeReg (fun va vb => va &&& vb) d a b s

/-- OR (rule R107). -/
def execOr (d a b : Byte) (s : State) : Host.Outcome State Fault Refusal :=
  threeReg (fun va vb => va ||| vb) d a b s

/-- XOR (rule R108). -/
def execXor (d a b : Byte) (s : State) : Host.Outcome State Fault Refusal :=
  threeReg (fun va vb => va ^^^ vb) d a b s

/-- NOT (rule R109). -/
def execNot (d a : Byte) (s : State) : Host.Outcome State Fault Refusal :=
  .next (s.setX d (~~~(s.x a)))

/-- A left shift by the full 32-bit amount, 0 from 32 on (rule R110). -/
def shiftLeft (va vb : Word) : Word :=
  if 32 ≤ vb.toNat then 0 else va <<< vb.toNat

/-- A logical right shift by the full 32-bit amount, 0 from 32 on (rule R111). -/
def shiftRight (va vb : Word) : Word :=
  if 32 ≤ vb.toNat then 0 else va >>> vb.toNat

/-- SHL (rule R110). -/
def execShl (d a b : Byte) (s : State) : Host.Outcome State Fault Refusal :=
  threeReg shiftLeft d a b s

/-- SHR (rule R111). -/
def execShr (d a b : Byte) (s : State) : Host.Outcome State Fault Refusal :=
  threeReg shiftRight d a b s

end Sys2Proof.Machine
end

