-- ==== Sys2Proof/Syntax.lean ====
section
/-! DEFINITION. The instructions of the rune CORE: one constructor per row of `spec/opcode_table.json`,
in the table's order. Every operand is the raw operand byte of the instruction stream (rule R62):
what a byte names is the machine's business, which checks a relation selector and a digit only after
the whole instruction is fetched (rule R85; log 11). -/

namespace Sys2Proof

/-- The operand letters are those of rules R62 and R63: `d` destination, `a` `b` sources, `s` value
source, `t` target, `p` port-index source, `c` relation selector, `v` payload, `l` label. -/
inductive Instr where
  | halt
  | nopHt
  | nopLf
  | nopVt
  | nopFf
  | nopCr
  | nopSp
  | br (c a b t : Byte)
  | liD (d v : Byte)
  | liI (d s : Byte)
  | liM (d s : Byte)
  | liR (d v : Byte)
  | liW (d v0 v1 v2 v3 : Byte)
  | liX (d v : Byte)
  | mod (d a b : Byte)
  | and (d a b : Byte)
  | call (t : Byte)
  | ret
  | mul (d a b : Byte)
  | add (d a b : Byte)
  | inp (d p : Byte)
  | sub (d a b : Byte)
  | div (d a b : Byte)
  | label (d : Byte)
  | out (p s : Byte)
  | shl (d a b : Byte)
  | shr (d a b : Byte)
  | skip (c a b : Byte)
  | jmp (t : Byte)
  | ld (d a : Byte)
  | st (a s : Byte)
  | xor (d a b : Byte)
  | blk (l : Byte)
  | or (d a b : Byte)
  | endMark (l : Byte)
  | not (d a : Byte)
deriving DecidableEq, Repr

end Sys2Proof
end

