-- ==== Sys2Proof/Decode.lean ====
section
/-! DEFINITION. Decoding (rules R60 to R72 and the decode phase of R84, R85, R120) and encoding.

One decoder reads from any byte source, so that the machine's `Fetch()`, the skip of rule R90 and a
plain list of bytes all share it. It is total; it refuses by name. -/

namespace Sys2Proof

/-- How a decode ends. Each case holds the source as it stands after the bytes taken. -/
inductive Decoded (σ : Type) where
  /-- An instruction was read whole. -/
  | ok (i : Instr) (rest : σ)
  /-- The source gave no byte where one was needed: `Fetch()` failed (rule R80). -/
  | truncated (rest : σ)
  /-- The opcode byte is none of rules R64 and R65 (rules R69, R192). -/
  | invalidOpcode (rest : σ)
  /-- The mode byte of an LI is none of rule R67 (rule R127); no payload byte was taken. -/
  | invalidMode (rest : σ)
deriving DecidableEq, Repr

/-- What follows an opcode byte: the operand bytes it takes, and the instruction they make. -/
inductive Form where
  | none0 (i : Instr)
  | one (mk : Byte → Instr)
  | two (mk : Byte → Byte → Instr)
  | three (mk : Byte → Byte → Byte → Instr)
  | four (mk : Byte → Byte → Byte → Byte → Instr)
  /-- LI: destination, mode, then the payload the mode asks for (rule R120). -/
  | immediate

/-- What follows the mode byte of an LI (rule R67): one payload byte, or the four of mode `w`. -/
inductive Payload where
  | byte (mk : Byte → Byte → Instr)
  | word

/-- The opcode map (rules R64 and R65). Every byte not listed is invalid (rule R69). -/
def opcodeForm (op : Byte) : Option Form :=
  match op with
  | 0x00#8 => some (.none0 .halt)
  | 0x09#8 => some (.none0 .nopHt)
  | 0x0A#8 => some (.none0 .nopLf)
  | 0x0B#8 => some (.none0 .nopVt)
  | 0x0C#8 => some (.none0 .nopFf)
  | 0x0D#8 => some (.none0 .nopCr)
  | 0x20#8 => some (.none0 .nopSp)
  | 0x21#8 => some (.four .br)
  | 0x23#8 => some .immediate
  | 0x25#8 => some (.three .mod)
  | 0x26#8 => some (.three .and)
  | 0x28#8 => some (.one .call)
  | 0x29#8 => some (.none0 .ret)
  | 0x2A#8 => some (.three .mul)
  | 0x2B#8 => some (.three .add)
  | 0x2C#8 => some (.two .inp)
  | 0x2D#8 => some (.three .sub)
  | 0x2F#8 => some (.three .div)
  | 0x3A#8 => some (.one .label)
  | 0x3B#8 => some (.two .out)
  | 0x3C#8 => some (.three .shl)
  | 0x3E#8 => some (.three .shr)
  | 0x3F#8 => some (.three .skip)
  | 0x40#8 => some (.one .jmp)
  | 0x5B#8 => some (.two .ld)
  | 0x5D#8 => some (.two .st)
  | 0x5E#8 => some (.three .xor)
  | 0x7B#8 => some (.one .blk)
  | 0x7C#8 => some (.three .or)
  | 0x7D#8 => some (.one .endMark)
  | 0x7E#8 => some (.two .not)
  | _ => none

/-- The LI mode selectors (rule R67). Every other mode byte is invalid (rules R70, R127). -/
def modePayload (m : Byte) : Option Payload :=
  match m with
  | 0x72#8 => some (.byte .liR)
  | 0x64#8 => some (.byte .liD)
  | 0x78#8 => some (.byte .liX)
  | 0x77#8 => some .word
  | 0x6D#8 => some (.byte .liM)
  | 0x69#8 => some (.byte .liI)
  | _ => none

/-- Take one byte from the source and go on, or end the decode where there is none (rule R80). -/
def takeByte {σ : Type} (next : σ → Option (Byte × σ)) (src : σ) (k : Byte → σ → Decoded σ) :
    Decoded σ :=
  match next src with
  | none => .truncated src
  | some (b, rest) => k b rest

/-- The rest of an LI after its opcode byte (rule R120): the mode is checked before any payload byte
is taken (rule R127). -/
def decodeImmediate {σ : Type} (next : σ → Option (Byte × σ)) (src : σ) : Decoded σ :=
  takeByte next src fun d s1 =>
  takeByte next s1 fun m s2 =>
    match modePayload m with
    | none => .invalidMode s2
    | some (.byte mk) => takeByte next s2 fun v s3 => .ok (mk d v) s3
    | some .word =>
      takeByte next s2 fun v0 s3 =>
      takeByte next s3 fun v1 s4 =>
      takeByte next s4 fun v2 s5 =>
      takeByte next s5 fun v3 s6 => .ok (.liW d v0 v1 v2 v3) s6

/-- The operand bytes of an opcode, and the instruction (rules R61, R63). -/
def decodeOperands {σ : Type} (next : σ → Option (Byte × σ)) (f : Form) (src : σ) : Decoded σ :=
  match f with
  | .none0 i => .ok i src
  | .one mk => takeByte next src fun b1 s1 => .ok (mk b1) s1
  | .two mk =>
    takeByte next src fun b1 s1 =>
    takeByte next s1 fun b2 s2 => .ok (mk b1 b2) s2
  | .three mk =>
    takeByte next src fun b1 s1 =>
    takeByte next s1 fun b2 s2 =>
    takeByte next s2 fun b3 s3 => .ok (mk b1 b2 b3) s3
  | .four mk =>
    takeByte next src fun b1 s1 =>
    takeByte next s1 fun b2 s2 =>
    takeByte next s2 fun b3 s3 =>
    takeByte next s3 fun b4 s4 => .ok (mk b1 b2 b3 b4) s4
  | .immediate => decodeImmediate next src

/-- The decoder over any byte source: the opcode byte, then what the opcode map asks for
(rules R84, R85, R89). -/
def decodeFrom {σ : Type} (next : σ → Option (Byte × σ)) (src : σ) : Decoded σ :=
  takeByte next src fun op s1 =>
    match opcodeForm op with
    | none => .invalidOpcode s1
    | some f => decodeOperands next f s1

/-- A list of bytes as a byte source. -/
def nextOfList : List Byte → Option (Byte × List Byte)
  | [] => none
  | b :: bs => some (b, bs)

/-- Decode the first instruction of a list of bytes, with the bytes that follow it. -/
def decode (bs : List Byte) : Decoded (List Byte) := decodeFrom nextOfList bs

/-- The bytes of an instruction in address order (rules R60, R63, R64, R65, R67). -/
def encode (i : Instr) : List Byte :=
  match i with
  | .halt => [0x00]
  | .nopHt => [0x09]
  | .nopLf => [0x0A]
  | .nopVt => [0x0B]
  | .nopFf => [0x0C]
  | .nopCr => [0x0D]
  | .nopSp => [0x20]
  | .br c a b t => [0x21, c, a, b, t]
  | .liD d v => [0x23, d, 0x64, v]
  | .liI d s => [0x23, d, 0x69, s]
  | .liM d s => [0x23, d, 0x6D, s]
  | .liR d v => [0x23, d, 0x72, v]
  | .liW d v0 v1 v2 v3 => [0x23, d, 0x77, v0, v1, v2, v3]
  | .liX d v => [0x23, d, 0x78, v]
  | .mod d a b => [0x25, d, a, b]
  | .and d a b => [0x26, d, a, b]
  | .call t => [0x28, t]
  | .ret => [0x29]
  | .mul d a b => [0x2A, d, a, b]
  | .add d a b => [0x2B, d, a, b]
  | .inp d p => [0x2C, d, p]
  | .sub d a b => [0x2D, d, a, b]
  | .div d a b => [0x2F, d, a, b]
  | .label d => [0x3A, d]
  | .out p s => [0x3B, p, s]
  | .shl d a b => [0x3C, d, a, b]
  | .shr d a b => [0x3E, d, a, b]
  | .skip c a b => [0x3F, c, a, b]
  | .jmp t => [0x40, t]
  | .ld d a => [0x5B, d, a]
  | .st a s => [0x5D, a, s]
  | .xor d a b => [0x5E, d, a, b]
  | .blk l => [0x7B, l]
  | .or d a b => [0x7C, d, a, b]
  | .endMark l => [0x7D, l]
  | .not d a => [0x7E, d, a]

/-- The length of an instruction in bytes, written from the length columns of rules R61 and R64. -/
def Instr.len (i : Instr) : Nat :=
  match i with
  | .halt => 1
  | .nopHt => 1
  | .nopLf => 1
  | .nopVt => 1
  | .nopFf => 1
  | .nopCr => 1
  | .nopSp => 1
  | .br _ _ _ _ => 5
  | .liD _ _ => 4
  | .liI _ _ => 4
  | .liM _ _ => 4
  | .liR _ _ => 4
  | .liW _ _ _ _ _ => 7
  | .liX _ _ => 4
  | .mod _ _ _ => 4
  | .and _ _ _ => 4
  | .call _ => 2
  | .ret => 1
  | .mul _ _ _ => 4
  | .add _ _ _ => 4
  | .inp _ _ => 3
  | .sub _ _ _ => 4
  | .div _ _ _ => 4
  | .label _ => 2
  | .out _ _ => 3
  | .shl _ _ _ => 4
  | .shr _ _ _ => 4
  | .skip _ _ _ => 4
  | .jmp _ => 2
  | .ld _ _ => 3
  | .st _ _ => 3
  | .xor _ _ _ => 4
  | .blk _ => 2
  | .or _ _ _ => 4
  | .endMark _ => 2
  | .not _ _ => 3

/-- The longest instruction, LI mode `w` (rule R61). -/
def maxInstrBytes : Nat := 7

/-- Byte `k` of a number of `n` bytes, the byte of address 0 on top. -/
def byteFromTop (n w k : Nat) : Byte := BitVec.ofNat 8 (w >>> (8 * (n - 1 - k)))

/-- The bytes, in address order, of an instruction that `spec/opcode_table.json` numbers as one
number `w` of `nbits` bits. The table's `fixed` rows put the opcode byte, which stands at the lowest
address, in the TOP eight bits (HALT 7:0, CALL 15:8, LI 31:24), so the number is read from its top
byte down. Bytes past `nbits`, up to the longest instruction, are 0. DEDUCED, log 13. -/
def tableBytes (nbits w : Nat) : List Byte :=
  let n := nbits / 8
  ((List.range n).map (byteFromTop n w) ++ List.replicate maxInstrBytes 0).take maxInstrBytes

/-- The instruction the decoder reads from a table word. -/
def decodeTableWord (nbits w : Nat) : Option Instr :=
  match decode (tableBytes nbits w) with
  | .ok i _ => some i
  | .truncated _ => none
  | .invalidOpcode _ => none
  | .invalidMode _ => none

end Sys2Proof
end

