-- ==== Sys2Proof/Machine/Fetch.lean ====
section
/-! DEFINITION. The fetch primitive, the decode phase over it, and stepping over one instruction
(spec 40_fetch_dispatch.md). -/

namespace Sys2Proof.Machine

/-- `Fetch()` (rules R80 to R82): the byte at the PC and the PC moved past it, or nothing when the PC
is at or beyond the end of memory. -/
def fetch (s : State) : Option (Byte × State) :=
  if s.memSize ≤ s.pc.toNat then none
  else some (s.mem.read s.pc.toNat, s.setPc (s.pc + 1))

/-- How the decode phase ends (rule R85): an instruction with the PC past it, or the state after the
fault that ended it (rule R86). -/
inductive Fetched where
  | ready (i : Instr) (s : State)
  | faulted (s : State)

/-- The decode phase of rules R84, R85 and R120: every byte through `Fetch()`, the PC past each byte
fetched; `BOUNDS` where a fetch fails, `INVALID_OPCODE` at an invalid opcode or LI mode byte. -/
def fetchInstr (s : State) : Fetched :=
  match decodeFrom fetch s with
  | .ok i t => .ready i t
  | .truncated t => .faulted (raiseFault .bounds t)
  | .invalidOpcode t => .faulted (raiseFault .invalidOpcode t)
  | .invalidMode t => .faulted (raiseFault .invalidOpcode t)

/-- `SkipOne()` (rule R90): fetch the bytes of one instruction and discard them. It takes the same
bytes, and faults at the same byte, as the decode phase (rules R72, R90). -/
def skipOne (s : State) : State :=
  match fetchInstr s with
  | .ready _ t => t
  | .faulted t => t

end Sys2Proof.Machine
end

