-- ==== Sys2Proof/Machine/Flags.lean ====
section
/-! DEFINITION. The CORE has no flags (rule R26). What stands here is the comparison SKIP and BR make
inside the instruction, which leaves no state. -/

namespace Sys2Proof.Machine

/-- `Rel(c, va, vb)` (rules R66, R160), unsigned; no value for an invalid selector byte. -/
def relation (c : Byte) (va vb : Word) : Option Bool :=
  if c = 0x3D then some (va = vb)
  else if c = 0x21 then some (va ≠ vb)
  else if c = 0x3E then some (va > vb)
  else if c = 0x3C then some (va < vb)
  else none

end Sys2Proof.Machine
end

