-- ==== Sys2Proof/Machine/Control.lean ====
section
/-! DEFINITION. Control transfer, the call stack and structured blocks (spec 44_control.md). The PC is past
the instruction when a meaning starts (rule R85). -/

namespace Sys2Proof.Machine

/-- JMP (rule R161). -/
def execJmp (t : Byte) (s : State) : Host.Outcome State Fault Refusal :=
  .next (s.setPc (s.x t))

/-- SKIP (rule R162): step over the next instruction when the relation is false. -/
def execSkip (c a b : Byte) (s : State) : Host.Outcome State Fault Refusal :=
  match relation c (s.x a) (s.x b) with
  | none => .next (raiseFault .invalidOpcode s)
  | some true => .next s
  | some false => .next (skipOne s)

/-- BR (rule R163): branch when the relation is true. -/
def execBr (c a b t : Byte) (s : State) : Host.Outcome State Fault Refusal :=
  match relation c (s.x a) (s.x b) with
  | none => .next (raiseFault .invalidOpcode s)
  | some true => .next (s.setPc (s.x t))
  | some false => .next s

/-- CALL (rule R164): the return address is the PC, the address after the call. -/
def execCall (t : Byte) (s : State) : Host.Outcome State Fault Refusal :=
  if s.stackFull then .next (raiseFault .stackOverflow s)
  else .next ((s.push s.pc).setPc (s.x t))

/-- RET (rule R165). -/
def execRet (s : State) : Host.Outcome State Fault Refusal :=
  if s.depth = 0 then .next (raiseFault .stackUnderflow s)
  else .next (s.pop.setPc (s.stackEntry (s.depth - 1)))

/-- LABEL (rule R166). -/
def execLabel (d : Byte) (s : State) : Host.Outcome State Fault Refusal :=
  .next (s.setX d s.pc)

/-- BLK (rules R167, R168): the label register takes the body start, the PC at the instruction's end;
then the scan from there, and the PC after the two-byte marker (modulo 2^32, log 15). -/
def execBlk (l : Byte) (s : State) : Host.Outcome State Fault Refusal :=
  match s.scan s.pc.toNat l with
  | none => .next (raiseFault .invalidProgram (s.setX l s.pc))
  | some m => .next ((s.setX l s.pc).setPc (BitVec.ofNat 32 (m + 2)))

/-- END met in execution (rule R169): the label byte is discarded and nothing else happens. -/
def execEnd (_l : Byte) (s : State) : Host.Outcome State Fault Refusal := .next s

end Sys2Proof.Machine
end

