-- ==== Sys2Proof/Machine/Immediate.lean ====
section
/-! DEFINITION. LI in its six modes (spec 42_immediate.md R121 to R126). -/

namespace Sys2Proof.Machine

/-- The write of a digit mode: the digit's value, or `INVALID_OPCODE` for a payload that is no digit
of the mode, with the destination unwritten (rules R122, R123). -/
def loadDigit (d : Byte) (digit : Option Word) (s : State) : Host.Outcome State Fault Refusal :=
  match digit with
  | some v => .next (s.setX d v)
  | none => .next (raiseFault .invalidOpcode s)

/-- LI mode `r` (rule R121). -/
def execLiR (d v : Byte) (s : State) : Host.Outcome State Fault Refusal :=
  .next (s.setX d (zext v))

/-- LI mode `d` (rule R122). -/
def execLiD (d v : Byte) (s : State) : Host.Outcome State Fault Refusal :=
  loadDigit d (decimalDigit v) s

/-- LI mode `x` (rule R123). -/
def execLiX (d v : Byte) (s : State) : Host.Outcome State Fault Refusal :=
  loadDigit d (hexDigit v) s

/-- LI mode `w` (rule R124). -/
def execLiW (d v0 v1 v2 v3 : Byte) (s : State) : Host.Outcome State Fault Refusal :=
  .next (s.setX d (littleEndian v0 v1 v2 v3))

/-- LI mode `m` (rule R125). -/
def execLiM (d v : Byte) (s : State) : Host.Outcome State Fault Refusal :=
  .next (s.setX d (s.x v))

/-- LI mode `i` (rule R126). -/
def execLiI (d v : Byte) (s : State) : Host.Outcome State Fault Refusal :=
  .next (s.setX d (s.indirect v))

end Sys2Proof.Machine
end

