-- ==== Sys2Proof/Machine/MemoryPort.lean ====
section
/-! DEFINITION. Memory access and port access (spec 43_memory_port.md R140 to R147). -/

namespace Sys2Proof.Machine

/-- LD (rule R140). -/
def execLd (d a : Byte) (s : State) : Host.Outcome State Fault Refusal :=
  .next (s.setX d (zext (s.memRead (s.x a))))

/-- ST (rule R141). -/
def execSt (a v : Byte) (s : State) : Host.Outcome State Fault Refusal :=
  .next (s.memWrite (s.x a) (lowByte (s.x v)))

/-- The end of IN: the destination takes the port's value (rule R142). -/
def readPort (d q : Byte) (s : State) : Host.Outcome State Fault Refusal :=
  .next (s.setX d (s.getPort q))

/-- IN (rule R142): the sense hook first, where one is attached (rule R146), then the read. -/
def execIn (d p : Byte) (s : State) : Host.Outcome State Fault Refusal :=
  if s.cfg.sensePresent then callHook .sense (s.portIndex p) s (readPort d (s.portIndex p))
  else readPort d (s.portIndex p) s

/-- OUT (rule R143): the write, then the emit hook where one is attached (rule R146). -/
def execOut (p v : Byte) (s : State) : Host.Outcome State Fault Refusal :=
  if s.cfg.emitPresent then
    callHook .emit (s.portIndex p) (s.setPort (s.portIndex p) (s.x v)) .next
  else .next (s.setPort (s.portIndex p) (s.x v))

end Sys2Proof.Machine
end

