-- ==== Sys2Proof/Machine/Terminate.lean ====
section
/-! DEFINITION. Terminate and no-op (spec 45_terminate.md R190, R191). The invalid opcode of rule R192 is no
instruction: the decode phase raises it (`fetchInstr`). -/

namespace Sys2Proof.Machine

/-- HALT (rule R190): a clean halt, the code stays `NONE`. -/
def execHalt (s : State) : Host.Outcome State Fault Refusal := .next s.halt

/-- A whitespace byte: nothing beyond the opcode fetch (rule R191). -/
def noOperation (s : State) : Host.Outcome State Fault Refusal := .next s

/-- NOP, byte HT (rule R191). -/
def execNopHt (s : State) : Host.Outcome State Fault Refusal := noOperation s

/-- NOP, byte LF (rule R191). -/
def execNopLf (s : State) : Host.Outcome State Fault Refusal := noOperation s

/-- NOP, byte VT (rule R191). -/
def execNopVt (s : State) : Host.Outcome State Fault Refusal := noOperation s

/-- NOP, byte FF (rule R191). -/
def execNopFf (s : State) : Host.Outcome State Fault Refusal := noOperation s

/-- NOP, byte CR (rule R191). -/
def execNopCr (s : State) : Host.Outcome State Fault Refusal := noOperation s

/-- NOP, byte SP (rule R191). -/
def execNopSp (s : State) : Host.Outcome State Fault Refusal := noOperation s

end Sys2Proof.Machine
end

