-- ==== Sys2Proof/Machine/Dispatch.lean ====
section
/-! DEFINITION. The dispatcher (rule R89): one arm per instruction. The state is the one after the decode
phase. -/

namespace Sys2Proof.Machine

/-- The read, check and execute phases of an instruction (rule R85). -/
def exec (i : Instr) (s : State) : Host.Outcome State Fault Refusal :=
  match i with
  | .halt => Sys2Proof.Machine.execHalt s
  | .nopHt => Sys2Proof.Machine.execNopHt s
  | .nopLf => Sys2Proof.Machine.execNopLf s
  | .nopVt => Sys2Proof.Machine.execNopVt s
  | .nopFf => Sys2Proof.Machine.execNopFf s
  | .nopCr => Sys2Proof.Machine.execNopCr s
  | .nopSp => Sys2Proof.Machine.execNopSp s
  | .br c a b t => Sys2Proof.Machine.execBr c a b t s
  | .liD d v => Sys2Proof.Machine.execLiD d v s
  | .liI d v => Sys2Proof.Machine.execLiI d v s
  | .liM d v => Sys2Proof.Machine.execLiM d v s
  | .liR d v => Sys2Proof.Machine.execLiR d v s
  | .liW d v0 v1 v2 v3 => Sys2Proof.Machine.execLiW d v0 v1 v2 v3 s
  | .liX d v => Sys2Proof.Machine.execLiX d v s
  | .mod d a b => Sys2Proof.Machine.execMod d a b s
  | .and d a b => Sys2Proof.Machine.execAnd d a b s
  | .call t => Sys2Proof.Machine.execCall t s
  | .ret => Sys2Proof.Machine.execRet s
  | .mul d a b => Sys2Proof.Machine.execMul d a b s
  | .add d a b => Sys2Proof.Machine.execAdd d a b s
  | .inp d p => Sys2Proof.Machine.execIn d p s
  | .sub d a b => Sys2Proof.Machine.execSub d a b s
  | .div d a b => Sys2Proof.Machine.execDiv d a b s
  | .label d => Sys2Proof.Machine.execLabel d s
  | .out p v => Sys2Proof.Machine.execOut p v s
  | .shl d a b => Sys2Proof.Machine.execShl d a b s
  | .shr d a b => Sys2Proof.Machine.execShr d a b s
  | .skip c a b => Sys2Proof.Machine.execSkip c a b s
  | .jmp t => Sys2Proof.Machine.execJmp t s
  | .ld d a => Sys2Proof.Machine.execLd d a s
  | .st a v => Sys2Proof.Machine.execSt a v s
  | .xor d a b => Sys2Proof.Machine.execXor d a b s
  | .blk l => Sys2Proof.Machine.execBlk l s
  | .or d a b => Sys2Proof.Machine.execOr d a b s
  | .endMark l => Sys2Proof.Machine.execEnd l s
  | .not d a => Sys2Proof.Machine.execNot d a s

end Sys2Proof.Machine
end

