-- ==== Sys2Proof/Machine/Place.lean ====
section
/-! DEFINITION. Placing an instruction where the next step fetches it (log 14). It stands for the host's
LOAD of a program (rule R231), but places the bytes at the PC where they fit there. -/

namespace Sys2Proof.Machine

/-- Where the longest instruction can be placed: at the PC if it fits below the end of memory there,
else at address 0, the entry point (rule R234). -/
def State.placeBase (s : State) : Word :=
  if s.pc.toNat + maxInstrBytes ≤ s.memSize then s.pc else 0

/-- The machine running, with the bytes at the place the next step fetches from. -/
def State.placeBytes (s : State) (bs : List Byte) : State :=
  { s.restart with
    mem := s.mem.writeBytes s.placeBase.toNat (bs.take (s.memSize - s.placeBase.toNat)) }.setPc
      s.placeBase

end Sys2Proof.Machine
end

