-- ==== Sys2Proof/Machine/Step.lean ====
section
/-! DEFINITION. One STEP of the CORE (rules R83 to R86). -/

namespace Sys2Proof.Machine

/-- STEP (rule R84): nothing on a halted CORE (rule R83) or after the host ended the run (rule R214);
else the decode phase, and the instruction from the state it leaves. A fault of the CORE is a next
state, halted with its code. -/
def step (s : State) : Host.Outcome State Fault Refusal :=
  if s.stopped then .next s
  else
    match fetchInstr s with
    | .ready i t => exec i t
    | .faulted t => .next t

/-- The state with the instruction of a table word stored where `step` fetches next (log 14). -/
def State.withFetchWord (s : State) (nbits w : Nat) : State := s.placeBytes (tableBytes nbits w)

end Sys2Proof.Machine
end

