-- ==== Sys2Proof/Machine/Commands.lean ====
section
/-! DEFINITION. The control interface INIT, LOAD, RESET, STEP, RUN and the debug interface
(rules R7, R91, R213, R230 to R233). The host issues a command between steps only (rule R235). -/

namespace Sys2Proof.Machine

/-- `MEM_LOG2` of a buffer of `n` bytes, where `n` is a power of two up to 2^32 (rule R5). -/
def bufferLog2 (n : Nat) : Option (Fin 33) := (List.finRange 33).find? fun k => 2 ^ k.val == n

/-- `INIT(buffer)` (rule R230): bind the buffer and bring everything else to its initial value. The
instance keeps its call-stack capacity and hooks (rule R34), and its host. A size that is no power of
two is refused (decision D19). -/
def cmdInit (buffer : List Byte) (s : State) : Host.Outcome State Fault Refusal :=
  match bufferLog2 buffer.length with
  | none => .refused .badBufferSize
  | some k =>
    .next { State.initial { s.cfg with memLog2 := k } (Memory.writeBytes [] 0 buffer) with
      hookCalls := s.hookCalls
      hostAnswers := s.hostAnswers }

/-- `LOAD(bytes)` (rule R231): the bytes from address 0 on, those past the end of memory dropped, the
PC 0, the status clear, and nothing else changed. It is defined in every state, after host termination
too (log 8). -/
def cmdLoad (bytes : List Byte) (s : State) : Host.Outcome State Fault Refusal :=
  .next ({ s.restart with mem := s.mem.writeBytes 0 (bytes.take s.memSize) }.setPc 0)

/-- `RESET` (rule R232): registers, ports, depth and status clear; memory and the call-stack entries
as they are. It is defined in every state, after host termination too (log 8). -/
def cmdReset (s : State) : Host.Outcome State Fault Refusal :=
  .next { s.restart with
    regs := Vector.replicate 128 0
    ports := Vector.replicate 256 0
    depth := 0 }

/-- The control commands the host issues one at a time (rule R7). -/
inductive Command where
  | init (buffer : List Byte)
  | load (bytes : List Byte)
  | reset
  | step
deriving DecidableEq, Repr

/-- A control command (rules R83, R84, R230 to R232). -/
def command (c : Command) (s : State) : Host.Outcome State Fault Refusal :=
  match c with
  | .init buffer => cmdInit buffer s
  | .load bytes => cmdLoad bytes s
  | .reset => cmdReset s
  | .step => step s

/-- RUN watched for at most `n` steps (rule R91): STEP is repeated until the CORE is stopped. -/
def run : Nat → State → Host.Outcome State Fault Refusal
  | 0, s => .next s
  | n + 1, s =>
    if s.stopped then .next s
    else
      match step s with
      | .next t => run n t
      | .fault f => .fault f
      | .refused r => .refused r

/-- The debug snapshot (rule R213, decision D27). -/
structure Snapshot where
  regs   : Vector Word 128
  bytes  : List Byte
  halted : Bool
  code   : StatusCode
  ports  : Ports
  depth  : Nat
deriving DecidableEq, Repr

/-- The snapshot of a state, with the bytes of memory from `start` on, `n` of them where memory is
that long (rule R213). It reads and changes nothing. -/
def debugSnapshot (start n : Nat) (s : State) : Snapshot :=
  { regs := s.regs
    bytes := (List.range' start (min n (s.memSize - start))).map s.mem.read
    halted := s.halted
    code := s.code
    ports := s.ports
    depth := s.depth }

end Sys2Proof.Machine
end

