-- ==== Sys2Proof/WellFormed.lean ====
section
/-! DEFINITION. Which instructions have only operand bytes the spec gives a meaning: a relation
selector of rule R66 and a digit of its LI mode (rule R68). A register byte, a label byte and a
payload byte of mode `r` or `w` have no invalid values (rule R71). An instruction that is not
well-formed is still decoded and executed: it raises `INVALID_OPCODE` (rule R70). -/

namespace Sys2Proof

/-- The four relation selectors of rule R66: `=`, `!`, `>`, `<`. -/
def isRelation (c : Byte) : Bool := c == 0x3D || c == 0x21 || c == 0x3E || c == 0x3C

/-- An ASCII decimal digit `'0'` to `'9'` (rule R68, mode `d`). -/
def isDecimal (v : Byte) : Bool := 0x30 ≤ v && v ≤ 0x39

/-- An ASCII hexadecimal digit, letters in either case (rule R68, mode `x`). -/
def isHex (v : Byte) : Bool := isDecimal v || (0x61 ≤ v && v ≤ 0x66) || (0x41 ≤ v && v ≤ 0x46)

/-- Every operand byte of the instruction is one its table gives a meaning (rules R66, R68, R71). -/
def wellFormed (i : Instr) : Bool :=
  match i with
  | .br c _ _ _ => isRelation c
  | .skip c _ _ => isRelation c
  | .liD _ v => isDecimal v
  | .liX _ v => isHex v
  | .halt => true
  | .nopHt => true
  | .nopLf => true
  | .nopVt => true
  | .nopFf => true
  | .nopCr => true
  | .nopSp => true
  | .liI _ _ => true
  | .liM _ _ => true
  | .liR _ _ => true
  | .liW _ _ _ _ _ => true
  | .mod _ _ _ => true
  | .and _ _ _ => true
  | .call _ => true
  | .ret => true
  | .mul _ _ _ => true
  | .add _ _ _ => true
  | .inp _ _ => true
  | .sub _ _ _ => true
  | .div _ _ _ => true
  | .label _ => true
  | .out _ _ => true
  | .shl _ _ _ => true
  | .shr _ _ _ => true
  | .jmp _ => true
  | .ld _ _ => true
  | .st _ _ => true
  | .xor _ _ _ => true
  | .blk _ => true
  | .or _ _ _ => true
  | .endMark _ => true
  | .not _ _ => true

/-- The instruction is well-formed. -/
abbrev WellFormed (i : Instr) : Prop := wellFormed i = true

end Sys2Proof
end

