-- ==== Sys2Proof/Safety.lean ====
section
/-! DEFINITION. The terms the claims use: the invariant of a CORE, the frames of instructions, bytes standing
in memory, and how a run ends. -/

namespace Sys2Proof.Machine

/-- The addresses and values memory lists are those of a canonical memory of this size
(rules R32, R40). -/
def State.memoryOk (s : State) : Prop := s.mem.wf ∧ ∀ c ∈ s.mem, c.1 < s.memSize

/-- The call stack has `STACK_DEPTH` entries, a positive number, and the depth never exceeds it
(rules R5, R30). -/
def State.stackOk (s : State) : Prop :=
  0 < s.cfg.stackDepth ∧ s.stack.length = s.cfg.stackDepth ∧ s.depth ≤ s.cfg.stackDepth

/-- A recorded code implies the CORE is halted (rule R28); a host-terminated CORE is neither halted
nor faulted (rule R214). -/
def State.statusOk (s : State) : Prop :=
  (s.code ≠ .noFault → s.halted = true) ∧ (s.hostTerminated = true → s.halted = false)

/-- The invariant of a CORE: what every state between steps satisfies. -/
def State.Inv (s : State) : Prop := s.memoryOk ∧ s.stackOk ∧ s.statusOk

/-- Memory reads the same at every address. -/
def SameMemory (s t : State) : Prop := ∀ a, t.mem.read a = s.mem.read a

/-- The call stack and its depth are unchanged. -/
def SameStack (s t : State) : Prop := t.stack = s.stack ∧ t.depth = s.depth

/-- The status (halted flag, code, host termination) is unchanged. -/
def SameStatus (s t : State) : Prop :=
  t.halted = s.halted ∧ t.code = s.code ∧ t.hostTerminated = s.hostTerminated

/-- The port bank is unchanged and no hook was called. -/
def SamePorts (s t : State) : Prop :=
  t.ports = s.ports ∧ t.hookCalls = s.hookCalls ∧ t.hostAnswers = s.hostAnswers

/-- Every register but those in `rs` is unchanged. -/
def SameRegsBut (rs : List (Fin 128)) (s t : State) : Prop :=
  ∀ r, r ∉ rs → t.getReg r = s.getReg r

/-- Nothing but the registers in `rs` changes: no flag exists, and every other register, the status,
the call stack, the ports, the hooks, the configuration and every byte of memory are as before. -/
def OnlyRegs (rs : List (Fin 128)) (s t : State) : Prop :=
  SameRegsBut rs s t ∧ SameMemory s t ∧ SameStack s t ∧ SameStatus s t ∧ SamePorts s t ∧ t.cfg = s.cfg

/-- Nothing but the status and the registers in `rs` changes, and the CORE is halted with the code. -/
def FaultsWith (c : StatusCode) (rs : List (Fin 128)) (s t : State) : Prop :=
  SameRegsBut rs s t ∧ SameMemory s t ∧ SameStack s t ∧ SamePorts s t ∧ t.cfg = s.cfg ∧
    t.hostTerminated = s.hostTerminated ∧ t.halted = true ∧ t.code = c

/-- The address of the byte `k` places after the PC (rule R82: the PC advances modulo 2^32). -/
def State.ahead (s : State) (k : Nat) : Nat := (s.pc + BitVec.ofNat 32 k).toNat

/-- The bytes stand in memory from the PC on, each below the end of memory, so that `Fetch()` reads
them in order (rules R60, R80). -/
def BytesAt (s : State) (bs : List Byte) : Prop :=
  ∀ k b, bs[k]? = some b → s.ahead k < s.memSize ∧ s.mem.read (s.ahead k) = b

/-- `Fetch()` cannot read the byte `k` places after the PC (rule R80). -/
def OutOfMemory (s : State) (k : Nat) : Prop := s.memSize ≤ s.ahead k

/-- The state after `k` bytes were fetched (rule R82). -/
def State.fetched (s : State) (k : Nat) : State := s.setPc (s.pc + BitVec.ofNat 32 k)

/-- How rules R84 to R86 bring an instruction to its meaning. When its bytes stand at the PC of a
running CORE, a STEP is its meaning with the PC past it; when only some of them lie below the end of
memory, the STEP is a `BOUNDS` fault at the first that does not, and nothing else happens. -/
def RunsFromItsBytes (i : Instr) : Prop :=
  ∀ s : State, s.stopped = false →
    (BytesAt s (encode i) → step s = exec i (s.fetched (encode i).length)) ∧
    (∀ k, k < (encode i).length → BytesAt s ((encode i).take k) → OutOfMemory s k →
      step s = .next (raiseFault .bounds (s.fetched k)))

/-- How a run ended (rule R216). -/
inductive RunEnd where
  | cleanHalt
  | faulted (c : StatusCode)
  | hostTerminated
deriving DecidableEq, Repr

/-- How the run that is in this state has ended, if it has (rules R207, R216). -/
def State.runEnd (s : State) : Option RunEnd :=
  if s.hostTerminated then some .hostTerminated
  else if s.halted then
    match s.code with
    | .noFault => some .cleanHalt
    | c => some (.faulted c)
  else none

/-- RUN from `s` ends in the state `t` (rules R91, R216). -/
def RunEndsIn (s t : State) : Prop := ∃ n, run n s = .next t ∧ t.stopped = true

/-- Two states that agree on everything but the dead call-stack entries `stack[depth..]`
(rule R33). -/
def SameButDeadStack (s t : State) : Prop :=
  t = { s with stack := t.stack } ∧ t.stack.length = s.stack.length ∧
    ∀ k, k < s.depth → t.stackEntry k = s.stackEntry k

/-- The relation a selector names holds, unsigned (rules R66, R160). -/
def RelationHolds (c : Byte) (va vb : Word) : Prop :=
  (c = 0x3D ∧ va = vb) ∨ (c = 0x21 ∧ va ≠ vb) ∨
    (c = 0x3E ∧ vb.toNat < va.toNat) ∨ (c = 0x3C ∧ va.toNat < vb.toNat)

/-- The invalid opcode bytes, as rule R69 lists them in ranges. -/
def invalidOpcodeRanges : List (Nat × Nat) :=
  [(0x01, 0x08), (0x0E, 0x1F), (0x22, 0x22), (0x24, 0x24), (0x27, 0x27), (0x2E, 0x2E),
   (0x30, 0x39), (0x3D, 0x3D), (0x41, 0x5A), (0x5C, 0x5C), (0x5F, 0x7A), (0x7F, 0xFF)]

/-- The byte is one of the invalid opcodes of rule R69. -/
def IsInvalidOpcode (op : Byte) : Prop :=
  ∃ r ∈ invalidOpcodeRanges, r.1 ≤ op.toNat ∧ op.toNat ≤ r.2

/-- The byte is one of the six LI mode selectors of rule R67. -/
def IsMode (m : Byte) : Prop :=
  m = 0x72 ∨ m = 0x64 ∨ m = 0x78 ∨ m = 0x77 ∨ m = 0x6D ∨ m = 0x69

/-- A close marker with the label byte stands at address `k`, inside memory (rule R168). -/
def MarkerAt (s : State) (l : Byte) (k : Nat) : Prop :=
  k + 1 < s.memSize ∧ s.mem.read k = 0x7D ∧ s.mem.read (k + 1) = l

/-- A register operand byte with bit 7 cleared: another name of the same register (rule R21). -/
def lowName (b : Byte) : Byte := b &&& 0x7F

/-- The instruction with bit 7 of every register operand byte cleared. Selector, payload and label
bytes stay as they are: they are no register names, or are matched raw (rules R62, R168). -/
def lowNames (i : Instr) : Instr :=
  match i with
  | .halt => .halt
  | .nopHt => .nopHt
  | .nopLf => .nopLf
  | .nopVt => .nopVt
  | .nopFf => .nopFf
  | .nopCr => .nopCr
  | .nopSp => .nopSp
  | .br c a b t => .br c (lowName a) (lowName b) (lowName t)
  | .liD d v => .liD (lowName d) v
  | .liI d v => .liI (lowName d) (lowName v)
  | .liM d v => .liM (lowName d) (lowName v)
  | .liR d v => .liR (lowName d) v
  | .liW d v0 v1 v2 v3 => .liW (lowName d) v0 v1 v2 v3
  | .liX d v => .liX (lowName d) v
  | .mod d a b => .mod (lowName d) (lowName a) (lowName b)
  | .and d a b => .and (lowName d) (lowName a) (lowName b)
  | .call t => .call (lowName t)
  | .ret => .ret
  | .mul d a b => .mul (lowName d) (lowName a) (lowName b)
  | .add d a b => .add (lowName d) (lowName a) (lowName b)
  | .inp d p => .inp (lowName d) (lowName p)
  | .sub d a b => .sub (lowName d) (lowName a) (lowName b)
  | .div d a b => .div (lowName d) (lowName a) (lowName b)
  | .label d => .label (lowName d)
  | .out p v => .out (lowName p) (lowName v)
  | .shl d a b => .shl (lowName d) (lowName a) (lowName b)
  | .shr d a b => .shr (lowName d) (lowName a) (lowName b)
  | .skip c a b => .skip c (lowName a) (lowName b)
  | .jmp t => .jmp (lowName t)
  | .ld d a => .ld (lowName d) (lowName a)
  | .st a v => .st (lowName a) (lowName v)
  | .xor d a b => .xor (lowName d) (lowName a) (lowName b)
  | .blk l => .blk l
  | .or d a b => .or (lowName d) (lowName a) (lowName b)
  | .endMark l => .endMark l
  | .not d a => .not (lowName d) (lowName a)

/-- Meanings one after another, each from the state its predecessor left, with the PC where the fetch
of that instruction left it. -/
def execAll : List (Word × Instr) → State → Host.Outcome State Fault Refusal
  | [], s => .next s
  | (p, i) :: rest, s =>
    match exec i (s.setPc p) with
    | .next t => execAll rest t
    | .fault f => .fault f
    | .refused r => .refused r

end Sys2Proof.Machine
end

