-- ==== Sys2Proof/Certificates/Slice0/Obligations.lean ====
section
/-! DEFINITION. The statements for the provers. Each docstring names the rules of `spec/` it formalises. The
state a meaning `exec i s` takes is the one after the decode phase (rule R85): the PC is already past
the instruction. `RunsFromItsBytes i` says how a STEP reaches it, and that a fetch that leaves memory
is a `BOUNDS` fault with nothing written. -/

open Sys2Proof Sys2Proof.Machine

/-! ## Reset, commands, invariant -/

/-- The clear values INIT leaves (rules R230, R233, R234), at `State.reset`. -/
def Obligations.ResetStateIsClear : Prop :=
  (∀ r, State.reset.getReg r = 0) ∧ (∀ q, State.reset.getPort q = 0) ∧ State.reset.depth = 0 ∧
    State.reset.halted = false ∧ State.reset.code = .noFault ∧ State.reset.stopped = false

/-- `State.reset` satisfies the invariant (rules R5, R28, R30, R32). Its parameters are the model's
choice (log 1 to 5). -/
def Obligations.ResetStateSatisfiesInvariant : Prop := State.reset.Inv

/-- The invariant of a CORE is kept by every STEP from every state: memory stays in canonical form
inside its size (R32), the call-stack depth never exceeds its capacity (R30), a recorded code implies
halted (R28). -/
def Obligations.StepKeepsInvariant : Prop :=
  ∀ s t : State, s.Inv → step s = .next t → t.Inv

/-- INIT, LOAD and RESET keep the invariant (rules R28, R230 to R232). -/
def Obligations.ControlCommandsKeepInvariant : Prop :=
  ∀ (s t : State) (bytes : List Byte), s.Inv →
    (cmdInit bytes s = .next t ∨ cmdLoad bytes s = .next t ∨ cmdReset s = .next t) → t.Inv

/-- INIT (rule R230): a buffer of `2^MEM_LOG2` bytes is bound with its contents, and registers, ports,
depth and status are clear; any other size is refused. The instance's capacity and hooks stay
(rule R34). -/
def Obligations.InitBindsBufferAndClearsState : Prop :=
  ∀ (s : State) (buffer : List Byte),
    (∀ k, k ≤ 32 → buffer.length = 2 ^ k →
      ∃ t, cmdInit buffer s = .next t ∧ t.memSize = buffer.length ∧
        (∀ n b, buffer[n]? = some b → t.mem.read n = b) ∧
        (∀ r, t.getReg r = 0) ∧ (∀ q, t.getPort q = 0) ∧ t.depth = 0 ∧
        t.halted = false ∧ t.code = .noFault ∧
        t.cfg.stackDepth = s.cfg.stackDepth ∧ t.cfg.sensePresent = s.cfg.sensePresent ∧
        t.cfg.emitPresent = s.cfg.emitPresent) ∧
    ((∀ k, k ≤ 32 → buffer.length ≠ 2 ^ k) → cmdInit buffer s = .refused .badBufferSize)

/-- LOAD (rule R231), on every CORE: the program bytes stand from address 0 on, those beyond memory
dropped; PC 0, status clear, everything else unchanged. -/
def Obligations.LoadCopiesProgramAndRestarts : Prop :=
  ∀ (s : State) (bytes : List Byte), s.memoryOk →
    ∃ t, cmdLoad bytes s = .next t ∧
      (∀ n b, n < s.memSize → bytes[n]? = some b → t.mem.read n = b) ∧
      (∀ a, min bytes.length s.memSize ≤ a → t.mem.read a = s.mem.read a) ∧
      t.pc = 0 ∧ t.halted = false ∧ t.code = .noFault ∧
      SameRegsBut [pcReg] s t ∧ SameStack s t ∧ SamePorts s t ∧ t.cfg = s.cfg

/-- RESET (rule R232), on every CORE: registers, ports, depth and status clear, the stack entries and
every byte of memory as they are. -/
def Obligations.ResetCommandKeepsMemory : Prop :=
  ∀ s : State,
    ∃ t, cmdReset s = .next t ∧ (∀ r, t.getReg r = 0) ∧ (∀ q, t.getPort q = 0) ∧ t.depth = 0 ∧
      t.halted = false ∧ t.code = .noFault ∧ t.stack = s.stack ∧ SameMemory s t ∧ t.cfg = s.cfg

/-- Only INIT, LOAD and RESET leave the halted state (rules R206, R215) and a run the host has ended: on a
stopped CORE a STEP changes nothing, and each of those, where it answers and in whatever state, clears
the status, sets the PC to 0 and starts a new run. What a command does after the host ended the run is
the model's choice (log 8). -/
def Obligations.OnlyCommandsLeaveTheHaltedState : Prop :=
  ∀ (c : Command) (s t : State), command c s = .next t →
    (c = .step → s.stopped = true → t = s) ∧
    (c ≠ .step → t.halted = false ∧ t.code = .noFault ∧ t.hostTerminated = false ∧
      t.stopped = false ∧ t.pc = 0)

/-! ## Fetch, decode and the step -/

/-- A STEP of a running CORE is the meaning of the decoded instruction with the PC past its bytes
(rules R84, R85, R89): for the bytes the decoder reads as `i`, and for the bytes the encoder lays out
for `i`. -/
def Obligations.StepRunsDecodedInstruction : Prop :=
  ∀ (s : State) (i : Instr), s.stopped = false →
    (∀ bs, decode bs = .ok i [] → BytesAt s bs → step s = exec i (s.fetched bs.length)) ∧
    (BytesAt s (encode i) → step s = exec i (s.fetched (encode i).length))

/-- A `Fetch()` below the end of memory reads the byte at the PC and advances the PC by one, modulo
2^32, and changes nothing else; at or beyond it, it fails: the PC never wraps through `MASK`
(rules R80, R82). -/
def Obligations.FetchReadsByteAndAdvancesPc : Prop :=
  ∀ s : State,
    (s.pc.toNat < s.memSize → ∃ t, fetch s = some (s.mem.read s.pc.toNat, t) ∧
      t.pc.toNat = (s.pc.toNat + 1) % 2 ^ 32 ∧ OnlyRegs [pcReg] s t) ∧
    (s.memSize ≤ s.pc.toNat → fetch s = none)

/-- A failed `Fetch()` (rules R80, R81, R86): the opcode byte of a STEP, or any operand byte, beyond
the end of memory. The CORE halts with `BOUNDS`, the PC at the address that failed, and nothing else
is changed. -/
def Obligations.FailedFetchFaultsBounds : Prop :=
  ∀ s : State, s.stopped = false →
    (s.memSize ≤ s.pc.toNat → ∃ t, step s = .next t ∧ t.pc = s.pc ∧ FaultsWith .bounds [] s t) ∧
    (∀ i k, k < (encode i).length → BytesAt s ((encode i).take k) → OutOfMemory s k →
      ∃ t, step s = .next t ∧ t.pc.toNat = s.ahead k ∧ s.memSize ≤ t.pc.toNat ∧
        FaultsWith .bounds [pcReg] s t)

/-- The 225 invalid opcode bytes (rules R69, R192): a STEP that fetches one halts with
`INVALID_OPCODE`, the PC just past it. The other 31 begin an instruction. -/
def Obligations.InvalidOpcodeByteFaults : Prop :=
  (∀ (s : State) (op : Byte), s.stopped = false → BytesAt s [op] → IsInvalidOpcode op →
    ∃ t, step s = .next t ∧ t.pc = s.pc + 1 ∧ FaultsWith .invalidOpcode [pcReg] s t) ∧
  (∀ op : Byte, ¬ IsInvalidOpcode op → ∃ i, (encode i).head? = some op) ∧
  (∀ i op, (encode i).head? = some op → ¬ IsInvalidOpcode op)

/-- An LI with an invalid mode byte (rule R127): `INVALID_OPCODE` as soon as the mode is fetched, the
PC at start + 3, no register but the PC written. -/
def Obligations.InvalidImmediateModeFaults : Prop :=
  ∀ (s : State) (d m : Byte), s.stopped = false → BytesAt s [0x23, d, m] → ¬ IsMode m →
    ∃ t, step s = .next t ∧ t.pc = s.pc + 3 ∧ FaultsWith .invalidOpcode [pcReg] s t

/-- A STEP on a halted CORE changes nothing (rule R83), and so does one after the host ended the run
(rule R214, log 8). -/
def Obligations.StepOfStoppedCoreChangesNothing : Prop :=
  (∀ s : State, s.halted = true → step s = .next s) ∧
  (∀ s : State, s.hostTerminated = true → step s = .next s)

/-- The decoder and the encoder agree in both directions (rules R60 to R67): the decoder reads `i` from
the start of a byte sequence exactly when the sequence begins with the bytes the encoder lays out for
`i`. So decoding an encoded instruction gives it back with every operand byte at every value, whatever
follows, and no bit of an accepted encoding is dropped. -/
def Obligations.DecodeAndEncodeAgree : Prop :=
  ∀ (bs : List Byte) (i : Instr) (rest : List Byte),
    decode bs = .ok i rest ↔ bs = encode i ++ rest

/-- The opcode byte alone fixes an instruction's length, except for LI, whose mode byte does: 7 bytes
for mode `w`, else 4 (rule R61). -/
def Obligations.OpcodeFixesLengthExceptLi : Prop :=
  (∀ i j : Instr, (encode i).head? = (encode j).head? → (encode i).head? ≠ some 0x23 →
    (encode i).length = (encode j).length) ∧
  (∀ i : Instr, (encode i).head? = some 0x23 →
    (encode i).length = if (encode i)[2]? = some 0x77 then 7 else 4)

/-- Words written out from the spec's encoding tables decode to the instructions they stand for, one
of each format (rules R63 to R67; 95_test_vectors.md). -/
def Obligations.SampleWordsDecode : Prop :=
  decode [0x2B, 0x63, 0x61, 0x62] = .ok (.add 0x63 0x61 0x62) [] ∧
  decode [0x7E, 0x63, 0x61] = .ok (.not 0x63 0x61) [] ∧
  decode [0x3F, 0x3D, 0x61, 0x62] = .ok (.skip 0x3D 0x61 0x62) [] ∧
  decode [0x21, 0x21, 0x6E, 0x7A, 0x4C] = .ok (.br 0x21 0x6E 0x7A 0x4C) [] ∧
  decode [0x23, 0x61, 0x72, 0x0A] = .ok (.liR 0x61 0x0A) [] ∧
  decode [0x23, 0x7A, 0x77, 0x78, 0x56, 0x34, 0x12] = .ok (.liW 0x7A 0x78 0x56 0x34 0x12) [] ∧
  decode [0x28, 0x66] = .ok (.call 0x66) [] ∧
  decode [0x7B, 0x4C] = .ok (.blk 0x4C) [] ∧
  decode [0x00] = .ok .halt []

/-! ## Arithmetic and bitwise -/

/-- ADD, SUB and MUL (rules R101 to R103): the result modulo 2^32, the destination alone written. -/
def Obligations.AddSubMulWrapModulo : Prop :=
  ∀ d a b : Byte,
    (encode (.add d a b) = [0x2B, d, a, b] ∧ RunsFromItsBytes (.add d a b) ∧
      ∀ s : State, ∃ t, exec (.add d a b) s = .next t ∧ OnlyRegs [reg d] s t ∧
        (t.x d).toNat = ((s.x a).toNat + (s.x b).toNat) % 2 ^ 32) ∧
    (encode (.sub d a b) = [0x2D, d, a, b] ∧ RunsFromItsBytes (.sub d a b) ∧
      ∀ s : State, ∃ t, exec (.sub d a b) s = .next t ∧ OnlyRegs [reg d] s t ∧
        ((t.x d).toNat : Int) = ((s.x a).toNat - (s.x b).toNat : Int) % 2 ^ 32) ∧
    (encode (.mul d a b) = [0x2A, d, a, b] ∧ RunsFromItsBytes (.mul d a b) ∧
      ∀ s : State, ∃ t, exec (.mul d a b) s = .next t ∧ OnlyRegs [reg d] s t ∧
        (t.x d).toNat = ((s.x a).toNat * (s.x b).toNat) % 2 ^ 32)

/-- DIV and MOD (rules R104, R105): floor division and remainder for a divisor that is not 0; for 0
the CORE halts with `DIVISION` and no register is written. -/
def Obligations.DivModFloorOrFault : Prop :=
  ∀ d a b : Byte,
    (encode (.div d a b) = [0x2F, d, a, b] ∧ RunsFromItsBytes (.div d a b) ∧
      ∀ s : State,
        (s.x b ≠ 0 → ∃ t, exec (.div d a b) s = .next t ∧ OnlyRegs [reg d] s t ∧
          (t.x d).toNat = (s.x a).toNat / (s.x b).toNat) ∧
        (s.x b = 0 → ∃ t, exec (.div d a b) s = .next t ∧ FaultsWith .division [] s t)) ∧
    (encode (.mod d a b) = [0x25, d, a, b] ∧ RunsFromItsBytes (.mod d a b) ∧
      ∀ s : State,
        (s.x b ≠ 0 → ∃ t, exec (.mod d a b) s = .next t ∧ OnlyRegs [reg d] s t ∧
          (t.x d).toNat =
            (s.x a).toNat - (s.x b).toNat * ((s.x a).toNat / (s.x b).toNat)) ∧
        (s.x b = 0 → ∃ t, exec (.mod d a b) s = .next t ∧ FaultsWith .division [] s t))

/-- The division law (rule R112): DIV and MOD of the same operands give `va = vb * q + r` with
`r < vb`. -/
def Obligations.QuotientAndRemainderRebuildDividend : Prop :=
  ∀ (s : State) (d e a b : Byte), s.x b ≠ 0 →
    ∃ t u, exec (.div d a b) s = .next t ∧ exec (.mod e a b) s = .next u ∧
      (s.x a).toNat = (s.x b).toNat * (t.x d).toNat + (u.x e).toNat ∧
      (u.x e).toNat < (s.x b).toNat

/-- AND, OR, XOR and NOT (rules R106 to R109), bit by bit; the destination alone written. -/
def Obligations.BitwiseResultsBitByBit : Prop :=
  ∀ d a b : Byte,
    (encode (.and d a b) = [0x26, d, a, b] ∧ RunsFromItsBytes (.and d a b) ∧
      ∀ s : State, ∃ t, exec (.and d a b) s = .next t ∧ OnlyRegs [reg d] s t ∧
        ∀ k, k < 32 → (t.x d).getLsbD k = ((s.x a).getLsbD k && (s.x b).getLsbD k)) ∧
    (encode (.or d a b) = [0x7C, d, a, b] ∧ RunsFromItsBytes (.or d a b) ∧
      ∀ s : State, ∃ t, exec (.or d a b) s = .next t ∧ OnlyRegs [reg d] s t ∧
        ∀ k, k < 32 → (t.x d).getLsbD k = ((s.x a).getLsbD k || (s.x b).getLsbD k)) ∧
    (encode (.xor d a b) = [0x5E, d, a, b] ∧ RunsFromItsBytes (.xor d a b) ∧
      ∀ s : State, ∃ t, exec (.xor d a b) s = .next t ∧ OnlyRegs [reg d] s t ∧
        ∀ k, k < 32 → (t.x d).getLsbD k = ((s.x a).getLsbD k ^^ (s.x b).getLsbD k)) ∧
    (encode (.not d a) = [0x7E, d, a] ∧ RunsFromItsBytes (.not d a) ∧
      ∀ s : State, ∃ t, exec (.not d a) s = .next t ∧ OnlyRegs [reg d] s t ∧
        (t.x d).toNat = 0xFFFFFFFF - (s.x a).toNat)

/-- SHL and SHR (rules R110, R111): the amount is the full word, 32 or more gives 0, the right shift
is logical; the destination alone written. -/
def Obligations.ShiftsUseTheFullAmount : Prop :=
  ∀ d a b : Byte,
    (encode (.shl d a b) = [0x3C, d, a, b] ∧ RunsFromItsBytes (.shl d a b) ∧
      ∀ s : State, ∃ t, exec (.shl d a b) s = .next t ∧ OnlyRegs [reg d] s t ∧
        (t.x d).toNat =
          if 32 ≤ (s.x b).toNat then 0 else ((s.x a).toNat * 2 ^ (s.x b).toNat) % 2 ^ 32) ∧
    (encode (.shr d a b) = [0x3E, d, a, b] ∧ RunsFromItsBytes (.shr d a b) ∧
      ∀ s : State, ∃ t, exec (.shr d a b) s = .next t ∧ OnlyRegs [reg d] s t ∧
        (t.x d).toNat =
          if 32 ≤ (s.x b).toNat then 0 else (s.x a).toNat / 2 ^ (s.x b).toNat)

/-! ## Immediate load -/

/-- LI modes `r` and `w` (rules R121, R124): the byte's value, and four bytes least significant
first. -/
def Obligations.LoadRawByteAndWord : Prop :=
  (∀ d v : Byte, encode (.liR d v) = [0x23, d, 0x72, v] ∧ RunsFromItsBytes (.liR d v) ∧
    ∀ s : State, ∃ t, exec (.liR d v) s = .next t ∧ OnlyRegs [reg d] s t ∧
      (t.x d).toNat = v.toNat) ∧
  (∀ d v0 v1 v2 v3 : Byte,
    encode (.liW d v0 v1 v2 v3) = [0x23, d, 0x77, v0, v1, v2, v3] ∧
    RunsFromItsBytes (.liW d v0 v1 v2 v3) ∧
    ∀ s : State, ∃ t, exec (.liW d v0 v1 v2 v3) s = .next t ∧ OnlyRegs [reg d] s t ∧
      (t.x d).toNat =
        v0.toNat + 2 ^ 8 * v1.toNat + 2 ^ 16 * v2.toNat + 2 ^ 24 * v3.toNat)

/-- LI modes `d` and `x` (rules R122, R123): the digit's value, letters in either case; any other
payload is `INVALID_OPCODE` with no register written. -/
def Obligations.LoadDigitValueOrFault : Prop :=
  (∀ d v : Byte, encode (.liD d v) = [0x23, d, 0x64, v] ∧ RunsFromItsBytes (.liD d v) ∧
    ∀ s : State,
      (0x30 ≤ v.toNat ∧ v.toNat ≤ 0x39 → ∃ t, exec (.liD d v) s = .next t ∧
        OnlyRegs [reg d] s t ∧ (t.x d).toNat = v.toNat - 0x30) ∧
      (v.toNat < 0x30 ∨ 0x39 < v.toNat → ∃ t, exec (.liD d v) s = .next t ∧
        FaultsWith .invalidOpcode [] s t)) ∧
  (∀ d v : Byte, encode (.liX d v) = [0x23, d, 0x78, v] ∧ RunsFromItsBytes (.liX d v) ∧
    ∀ s : State,
      (0x30 ≤ v.toNat ∧ v.toNat ≤ 0x39 → ∃ t, exec (.liX d v) s = .next t ∧
        OnlyRegs [reg d] s t ∧ (t.x d).toNat = v.toNat - 0x30) ∧
      (0x61 ≤ v.toNat ∧ v.toNat ≤ 0x66 → ∃ t, exec (.liX d v) s = .next t ∧
        OnlyRegs [reg d] s t ∧ (t.x d).toNat = v.toNat - 0x57) ∧
      (0x41 ≤ v.toNat ∧ v.toNat ≤ 0x46 → ∃ t, exec (.liX d v) s = .next t ∧
        OnlyRegs [reg d] s t ∧ (t.x d).toNat = v.toNat - 0x37) ∧
      (v.toNat < 0x30 ∨ (0x39 < v.toNat ∧ v.toNat < 0x41) ∨
        (0x46 < v.toNat ∧ v.toNat < 0x61) ∨ 0x66 < v.toNat →
        ∃ t, exec (.liX d v) s = .next t ∧ FaultsWith .invalidOpcode [] s t))

/-- LI modes `m` and `i` (rules R125, R126): a register copy, direct or through the memory byte at the
wrapped address, whose bit 7 is ignored. -/
def Obligations.LoadCopiesRegister : Prop :=
  ∀ d v : Byte,
    (encode (.liM d v) = [0x23, d, 0x6D, v] ∧ RunsFromItsBytes (.liM d v) ∧
      ∀ s : State, ∃ t, exec (.liM d v) s = .next t ∧ OnlyRegs [reg d] s t ∧ t.x d = s.x v) ∧
    (encode (.liI d v) = [0x23, d, 0x69, v] ∧ RunsFromItsBytes (.liI d v) ∧
      ∀ s : State, ∃ t, exec (.liI d v) s = .next t ∧ OnlyRegs [reg d] s t ∧
        ∀ r : Fin 128, r.val = (s.mem.read ((s.x v).toNat % s.memSize)).toNat % 128 →
          t.x d = s.getReg r)

/-! ## Memory and ports -/

/-- The wraparound unit (rules R41, R42): `a & MASK` is `a mod MEM_SIZE`, an address of memory, and the
identity when `MEM_LOG2 = 32`. -/
def Obligations.WrapIsModuloMemorySize : Prop :=
  ∀ (s : State) (a : Word),
    s.wrap a = a.toNat % s.memSize ∧ s.wrap a < s.memSize ∧
    (s.cfg.memLog2 = 32 → s.wrap a = a.toNat)

/-- LD (rule R140): the byte at the wrapped address, zero-extended; the destination alone written. -/
def Obligations.LdReadsWrappedByte : Prop :=
  ∀ d a : Byte, encode (.ld d a) = [0x5B, d, a] ∧ RunsFromItsBytes (.ld d a) ∧
    ∀ s : State, ∃ t, exec (.ld d a) s = .next t ∧ OnlyRegs [reg d] s t ∧
      (t.x d).toNat = (s.mem.read ((s.x a).toNat % s.memSize)).toNat

/-- ST (rule R141): the low byte of the value register at the wrapped address, every other byte of
memory and all the rest of the state unchanged. -/
def Obligations.StWritesWrappedByte : Prop :=
  ∀ a v : Byte, encode (.st a v) = [0x5D, a, v] ∧ RunsFromItsBytes (.st a v) ∧
    ∀ s : State, s.memoryOk → ∃ t, exec (.st a v) s = .next t ∧
      (∀ k, s.wrap (s.x a) = k →
        (t.mem.read k).toNat = (s.x v).toNat % 256 ∧
        ∀ j, j ≠ k → t.mem.read j = s.mem.read j) ∧
      SameRegsBut [] s t ∧ SameStack s t ∧ SameStatus s t ∧ SamePorts s t ∧ t.cfg = s.cfg

/-- The round trip (rules R42, R46): a load from an address that wraps to where a store wrote gives the
stored byte, for every address. -/
def Obligations.StoreThenLoadReturnsStoredByte : Prop :=
  ∀ (s : State) (a v d e : Byte), s.memoryOk → s.wrap (s.x e) = s.wrap (s.x a) →
    ∃ t u, exec (.st a v) s = .next t ∧ exec (.ld d e) t = .next u ∧
      (u.x d).toNat = (s.x v).toNat % 256 ∧ ((s.x v).toNat < 256 → u.x d = s.x v)

/-- A store is seen by the next fetch of the byte, with nothing required between (rules R55, R238). -/
def Obligations.StoreIsSeenByTheNextFetch : Prop :=
  ∀ (s : State) (a v : Byte) (p : Word), s.memoryOk → p.toNat = s.wrap (s.x a) →
    ∃ t u, exec (.st a v) s = .next t ∧
      fetch (t.setPc p) = some (BitVec.ofNat 8 (s.x v).toNat, u) ∧ u.pc = p + 1

/-- IN (rules R142, R144, R146), port index the register's low byte. Without a sense hook the port is
plain storage. With one whose answer is to return, the transaction is made with the port bank as it
stood, the bank becomes the host's, and the destination takes the port's new value. With one that
ends the run, no register is written. -/
def Obligations.InReadsPortAfterSense : Prop :=
  ∀ d p : Byte, encode (.inp d p) = [0x2C, d, p] ∧ RunsFromItsBytes (.inp d p) ∧
    ∀ (s : State) (q : Byte), q.toNat = (s.x p).toNat % 256 →
      (s.cfg.sensePresent = false → ∃ t, exec (.inp d p) s = .next t ∧
        OnlyRegs [reg d] s t ∧ t.x d = s.getPort q) ∧
      (∀ bank : Ports, s.cfg.sensePresent = true →
        s.hookAnswer ({ kind := .sense, port := q, ports := s.ports } :: s.hookCalls) =
          .returns bank →
        ∃ t, exec (.inp d p) s = .next t ∧ t.x d = t.getPort q ∧ t.ports = bank ∧
          t.hookCalls = { kind := .sense, port := q, ports := s.ports } :: s.hookCalls ∧
          t.hostAnswers = s.hostAnswers.tail ∧
          SameRegsBut [reg d] s t ∧ SameMemory s t ∧ SameStack s t ∧ SameStatus s t ∧
          t.cfg = s.cfg) ∧
      (s.cfg.sensePresent = true →
        s.hookAnswer ({ kind := .sense, port := q, ports := s.ports } :: s.hookCalls) =
          .terminates →
        ∃ t, exec (.inp d p) s = .next t ∧ t.hostTerminated = true ∧ SameRegsBut [] s t)

/-- OUT (rules R143, R145, R146): the full word to the port, then the emit hook, which sees the bank
with the value written and may leave any bank. A host that ends the run in the hook leaves the write
done. No register is written. -/
def Obligations.OutWritesPortThenEmits : Prop :=
  ∀ p v : Byte, encode (.out p v) = [0x3B, p, v] ∧ RunsFromItsBytes (.out p v) ∧
    ∀ (s : State) (q : Byte), q.toNat = (s.x p).toNat % 256 →
      (s.cfg.emitPresent = false → ∃ t, exec (.out p v) s = .next t ∧
        t.getPort q = s.x v ∧ (∀ r, r ≠ q → t.getPort r = s.getPort r) ∧
        t.hookCalls = s.hookCalls ∧ t.hostAnswers = s.hostAnswers ∧
        SameRegsBut [] s t ∧ SameMemory s t ∧ SameStack s t ∧ SameStatus s t ∧ t.cfg = s.cfg) ∧
      (∀ (written bank : Ports), s.cfg.emitPresent = true →
        (∀ r : Byte, written[r.toNat]'r.isLt = if r = q then s.x v else s.getPort r) →
        s.hookAnswer ({ kind := .emit, port := q, ports := written } :: s.hookCalls) =
          .returns bank →
        ∃ t, exec (.out p v) s = .next t ∧ t.ports = bank ∧
          t.hookCalls = { kind := .emit, port := q, ports := written } :: s.hookCalls ∧
          t.hostAnswers = s.hostAnswers.tail ∧
          SameRegsBut [] s t ∧ SameMemory s t ∧ SameStack s t ∧ SameStatus s t ∧ t.cfg = s.cfg) ∧
      (∀ written : Ports, s.cfg.emitPresent = true →
        (∀ r : Byte, written[r.toNat]'r.isLt = if r = q then s.x v else s.getPort r) →
        s.hookAnswer ({ kind := .emit, port := q, ports := written } :: s.hookCalls) =
          .terminates →
        ∃ t, exec (.out p v) s = .next t ∧ t.hostTerminated = true ∧ t.ports = written ∧
          SameRegsBut [] s t)

/-- Host termination (rule R214): the run ends with the state as it stood at the call. For IN no
register is written; for OUT the port is. The PC is three past the start, where the decode phase left
it. `halted` and `code` stay. That a STEP issued after it answers, and changes nothing, is the model's
choice (log 8). -/
def Obligations.HostTerminationKeepsStateAtCall : Prop :=
  (∀ d p : Byte, (encode (.inp d p)).length = 3 ∧ RunsFromItsBytes (.inp d p)) ∧
  (∀ p v : Byte, (encode (.out p v)).length = 3 ∧ RunsFromItsBytes (.out p v)) ∧
  ∀ (s : State) (q : Byte) (p : Byte), q.toNat = (s.x p).toNat % 256 →
    (∀ d : Byte, s.cfg.sensePresent = true →
      s.hookAnswer ({ kind := .sense, port := q, ports := s.ports } :: s.hookCalls) =
        .terminates →
      ∃ t, exec (.inp d p) s = .next t ∧ t.hostTerminated = true ∧ step t = .next t ∧
        t.ports = s.ports ∧ t.halted = s.halted ∧ t.code = s.code ∧
        SameRegsBut [] s t ∧ SameMemory s t ∧ SameStack s t ∧ t.cfg = s.cfg) ∧
    (∀ (v : Byte) (written : Ports), s.cfg.emitPresent = true →
      (∀ r : Byte, written[r.toNat]'r.isLt = if r = q then s.x v else s.getPort r) →
      s.hookAnswer ({ kind := .emit, port := q, ports := written } :: s.hookCalls) =
        .terminates →
      ∃ t, exec (.out p v) s = .next t ∧ t.hostTerminated = true ∧ step t = .next t ∧
        t.ports = written ∧ t.halted = s.halted ∧ t.code = s.code ∧
        SameRegsBut [] s t ∧ SameMemory s t ∧ SameStack s t ∧ t.cfg = s.cfg)

/-- A sense or emit hook that never returns leaves the CORE inside the STEP, and a run whose host
breaks its duty in a hook is refused (rules R92, R147, R217; log 9, 10). -/
def Obligations.HookThatNeverReturnsOrBreaksDutyStops : Prop :=
  ∀ (s : State) (p q : Byte), q.toNat = (s.x p).toNat % 256 →
    (∀ d : Byte, s.cfg.sensePresent = true →
      (s.hookAnswer ({ kind := .sense, port := q, ports := s.ports } :: s.hookCalls) =
        .neverReturns → exec (.inp d p) s = .fault .hookNeverReturns) ∧
      (s.hookAnswer ({ kind := .sense, port := q, ports := s.ports } :: s.hookCalls) =
        .breaksDuty → exec (.inp d p) s = .refused .hookBreaksDuty)) ∧
    (∀ (v : Byte) (written : Ports), s.cfg.emitPresent = true →
      (∀ r : Byte, written[r.toNat]'r.isLt = if r = q then s.x v else s.getPort r) →
      (s.hookAnswer ({ kind := .emit, port := q, ports := written } :: s.hookCalls) =
        .neverReturns → exec (.out p v) s = .fault .hookNeverReturns) ∧
      (s.hookAnswer ({ kind := .emit, port := q, ports := written } :: s.hookCalls) =
        .breaksDuty → exec (.out p v) s = .refused .hookBreaksDuty))

/-! ## Control transfer -/

/-- JMP (rule R161): the PC takes the target register's value, in memory or not; nothing else
changes. -/
def Obligations.JmpSetsPc : Prop :=
  ∀ t : Byte, encode (.jmp t) = [0x40, t] ∧ RunsFromItsBytes (.jmp t) ∧
    ∀ s : State, ∃ u, exec (.jmp t) s = .next u ∧ u.pc = s.x t ∧ OnlyRegs [pcReg] s u

/-- BR (rules R160, R163): for a valid selector the PC takes the target when the unsigned relation
holds and stays past the instruction when it does not; any other selector is `INVALID_OPCODE`. -/
def Obligations.BrBranchesWhenRelationHolds : Prop :=
  ∀ c a b t : Byte, encode (.br c a b t) = [0x21, c, a, b, t] ∧ RunsFromItsBytes (.br c a b t) ∧
    ∀ s : State,
      (isRelation c = true → ∃ u, exec (.br c a b t) s = .next u ∧ OnlyRegs [pcReg] s u ∧
        (RelationHolds c (s.x a) (s.x b) → u.pc = s.x t) ∧
        (¬ RelationHolds c (s.x a) (s.x b) → u.pc = s.pc)) ∧
      (isRelation c = false → ∃ u, exec (.br c a b t) s = .next u ∧
        FaultsWith .invalidOpcode [] s u)

/-- SKIP (rule R162): when the relation holds nothing changes; when it does not, the next instruction
is stepped over (`SkipOne`, rule R90), and only the PC or, where that faults, the status changes; any
other selector is `INVALID_OPCODE`. -/
def Obligations.SkipStepsOverWhenRelationFails : Prop :=
  ∀ c a b : Byte, encode (.skip c a b) = [0x3F, c, a, b] ∧ RunsFromItsBytes (.skip c a b) ∧
    ∀ s : State,
      (isRelation c = true → RelationHolds c (s.x a) (s.x b) →
        ∃ t, exec (.skip c a b) s = .next t ∧ OnlyRegs [] s t) ∧
      (isRelation c = true → ¬ RelationHolds c (s.x a) (s.x b) →
        exec (.skip c a b) s = .next (skipOne s) ∧
        (OnlyRegs [pcReg] s (skipOne s) ∨
          FaultsWith .bounds [pcReg] s (skipOne s) ∨
          FaultsWith .invalidOpcode [pcReg] s (skipOne s))) ∧
      (isRelation c = false → ∃ t, exec (.skip c a b) s = .next t ∧
        FaultsWith .invalidOpcode [] s t)

/-- `SkipOne()` (rule R90): the PC moves past the bytes of the next instruction, whatever it is, and
nothing else changes; `BOUNDS` at the first of its bytes beyond memory; `INVALID_OPCODE` after an
invalid opcode byte or LI mode byte. -/
def Obligations.SkipOneFetchesAndDiscards : Prop :=
  ∀ s : State,
    (∀ i, BytesAt s (encode i) → skipOne s = s.fetched (encode i).length) ∧
    (∀ i k, k < (encode i).length → BytesAt s ((encode i).take k) → OutOfMemory s k →
      skipOne s = raiseFault .bounds (s.fetched k)) ∧
    (∀ op, BytesAt s [op] → IsInvalidOpcode op →
      skipOne s = raiseFault .invalidOpcode (s.fetched 1)) ∧
    (∀ d m, BytesAt s [0x23, d, m] → ¬ IsMode m →
      skipOne s = raiseFault .invalidOpcode (s.fetched 3))

/-- CALL (rule R164): with room on the stack the PC, which is the address after the call, is pushed
and the PC takes the target; on a full stack `STACK_OVERFLOW` with nothing pushed. -/
def Obligations.CallPushesReturnAddress : Prop :=
  ∀ t : Byte, encode (.call t) = [0x28, t] ∧ RunsFromItsBytes (.call t) ∧
    ∀ s : State, s.stackOk →
      (s.depth < s.cfg.stackDepth → ∃ u, exec (.call t) s = .next u ∧
        u.depth = s.depth + 1 ∧ u.stackEntry s.depth = s.pc ∧
        (∀ k, k ≠ s.depth → u.stackEntry k = s.stackEntry k) ∧
        u.pc = s.x t ∧ SameRegsBut [pcReg] s u ∧ SameMemory s u ∧ SameStatus s u ∧
        SamePorts s u ∧ u.cfg = s.cfg) ∧
      (s.depth = s.cfg.stackDepth → ∃ u, exec (.call t) s = .next u ∧
        FaultsWith .stackOverflow [] s u)

/-- RET (rule R165): the top entry goes to the PC and the depth falls by one, the entries as they
were; on an empty stack `STACK_UNDERFLOW`. -/
def Obligations.RetPopsReturnAddress : Prop :=
  encode .ret = [0x29] ∧ RunsFromItsBytes .ret ∧
    ∀ s : State,
      (0 < s.depth → ∃ t, exec .ret s = .next t ∧ t.depth + 1 = s.depth ∧
        t.pc = s.stackEntry (s.depth - 1) ∧ t.stack = s.stack ∧
        SameRegsBut [pcReg] s t ∧ SameMemory s t ∧ SameStatus s t ∧ SamePorts s t ∧
        t.cfg = s.cfg) ∧
      (s.depth = 0 → ∃ t, exec .ret s = .next t ∧ FaultsWith .stackUnderflow [] s t)

/-- Call and return are balanced (rule R165): N nested calls followed by N returns bring the PC to the
instruction after the outermost call and the depth back, for every N the stack has room for and
wherever the calls and returns stand; a further return from depth 0 underflows. -/
def Obligations.NestedCallsThenReturnsBalance : Prop :=
  ∀ (s : State) (p : Word) (b : Byte) (calls : List (Word × Byte)) (rets : List Word),
    s.stackOk → s.depth + (calls.length + 1) ≤ s.cfg.stackDepth →
    rets.length = calls.length + 1 →
    ∃ t, execAll (((p, b) :: calls).map (fun c => (c.1, Instr.call c.2)) ++
        rets.map (fun r => (r, Instr.ret))) s = .next t ∧
      t.pc = p ∧ t.depth = s.depth ∧
      (s.depth = 0 → ∃ u, exec .ret t = .next u ∧ u.halted = true ∧ u.code = .stackUnderflow)

/-- LABEL (rule R166): the destination takes the PC, the address after the instruction; nothing else
is written. -/
def Obligations.LabelCapturesNextAddress : Prop :=
  ∀ d : Byte, encode (.label d) = [0x3A, d] ∧ RunsFromItsBytes (.label d) ∧
    ∀ s : State, ∃ t, exec (.label d) s = .next t ∧ t.x d = s.pc ∧ OnlyRegs [reg d] s t

/-- BLK (rules R167, R168): where `k` is the first address at or after the body start, inside memory,
that holds the close marker and the raw label byte, the label register takes the body start and the PC
goes just after the marker (which replaces the label write when the label names the PC); where there
is none, `INVALID_PROGRAM` with the label register written. A marker in the last two bytes of the
whole address space has its own statement below. -/
def Obligations.BlkJumpsPastFirstMarker : Prop :=
  ∀ l : Byte, encode (.blk l) = [0x7B, l] ∧ RunsFromItsBytes (.blk l) ∧
    ∀ s : State,
      (∀ k, s.pc.toNat ≤ k → MarkerAt s l k →
        (∀ j, s.pc.toNat ≤ j → j < k → ¬ MarkerAt s l j) →
        ∃ t, exec (.blk l) s = .next t ∧ (k + 2 < 2 ^ 32 → t.pc.toNat = k + 2) ∧
          (reg l ≠ pcReg → t.x l = s.pc) ∧ OnlyRegs [reg l, pcReg] s t) ∧
      ((∀ k, s.pc.toNat ≤ k → ¬ MarkerAt s l k) →
        ∃ t, exec (.blk l) s = .next t ∧ t.x l = s.pc ∧
          FaultsWith .invalidProgram [reg l] s t)

/-- BLK whose first marker stands in the last two bytes of a 2^32-byte memory: the address after the
marker is 2^32, and the PC takes 0. The model's reading (DEDUCED, log 15), no rule's words. -/
def Obligations.BlkMarkerAtTopOfAddressSpace : Prop :=
  ∀ (s : State) (l : Byte) (k : Nat), s.pc.toNat ≤ k → MarkerAt s l k → k + 2 = 2 ^ 32 →
    (∀ j, s.pc.toNat ≤ j → j < k → ¬ MarkerAt s l j) →
    ∃ t, exec (.blk l) s = .next t ∧ t.pc = 0 ∧ OnlyRegs [reg l, pcReg] s t

/-- END met in execution (rule R169): a two-byte no-op. -/
def Obligations.EndMarkerIsNoOp : Prop :=
  ∀ l : Byte, encode (.endMark l) = [0x7D, l] ∧ RunsFromItsBytes (.endMark l) ∧
    ∀ s : State, ∃ t, exec (.endMark l) s = .next t ∧ OnlyRegs [] s t

/-! ## Terminate and no-op -/

/-- HALT (rule R190): the CORE is halted, the code stays, which on a running CORE is `NONE`, and nothing
else changes. -/
def Obligations.HaltIsClean : Prop :=
  encode .halt = [0x00] ∧ RunsFromItsBytes .halt ∧
    ∀ s : State, ∃ t, exec .halt s = .next t ∧ t.halted = true ∧ t.code = s.code ∧
      (s.statusOk → s.halted = false → t.code = .noFault) ∧
      t.hostTerminated = s.hostTerminated ∧
      SameRegsBut [] s t ∧ SameMemory s t ∧ SameStack s t ∧ SamePorts s t ∧ t.cfg = s.cfg

/-- The six whitespace bytes (rules R65, R191): nothing beyond the opcode fetch. -/
def Obligations.WhitespaceIsNoOp : Prop :=
  ∀ i op, (i, op) ∈ [(Instr.nopHt, (0x09 : Byte)), (.nopLf, 0x0A), (.nopVt, 0x0B), (.nopFf, 0x0C),
      (.nopCr, 0x0D), (.nopSp, 0x20)] →
    encode i = [op] ∧ RunsFromItsBytes i ∧
      ∀ s : State, ∃ t, exec i s = .next t ∧ OnlyRegs [] s t

/-! ## The whole machine -/

/-- No instruction but ST changes a byte of memory (rules R45, R50, R141). -/
def Obligations.OnlyStoresWriteMemory : Prop :=
  ∀ (i : Instr) (s t : State), exec i s = .next t → (∀ a v, i ≠ .st a v) → SameMemory s t

/-- Only CALL and RET read or write the call stack (rule R30): every other instruction leaves it as it
is, and does the same whatever the stack holds. -/
def Obligations.OnlyCallAndRetTouchStack : Prop :=
  ∀ (i : Instr) (s t : State), exec i s = .next t → (∀ b, i ≠ .call b) → i ≠ .ret →
    SameStack s t ∧
    ∀ (stack : List Word) (depth : Nat),
      exec i { s with stack := stack, depth := depth } =
        .next { t with stack := stack, depth := depth }

/-- Instructions reach the port bank only through IN and OUT (rule R31): every other instruction leaves it
as it is and does the same whatever the bank holds. Only they call a hook (rules R144, R145) or end a
run (rule R214). -/
def Obligations.OnlyPortInstructionsTouchPorts : Prop :=
  ∀ (i : Instr) (s t : State), exec i s = .next t → (∀ d p, i ≠ .inp d p) →
    (∀ p v, i ≠ .out p v) →
    SamePorts s t ∧ t.hostTerminated = s.hostTerminated ∧
    ∀ bank : Ports, exec i { s with ports := bank } = .next { t with ports := bank }

/-- Only HALT and a fault write the status (rule R29): from a running CORE an instruction leaves it
running with code `NONE`, or is HALT and halts it with code `NONE`, or halts it with a fault's
code. -/
def Obligations.OnlyHaltAndFaultsWriteStatus : Prop :=
  ∀ (i : Instr) (s t : State), exec i s = .next t → s.halted = false → s.code = .noFault →
    (t.halted = false ∧ t.code = .noFault) ∨
    (i = .halt ∧ t.halted = true ∧ t.code = .noFault) ∨
    (t.halted = true ∧ t.code ≠ .noFault)

/-- No instruction reads the status (rule R29): with any other status it does the same to everything
but the status. -/
def Obligations.StatusIsNotReadable : Prop :=
  ∀ (i : Instr) (s t : State) (h : Bool) (c : StatusCode), exec i s = .next t →
    ∃ h' c', exec i { s with halted := h, code := c } = .next { t with halted := h', code := c' }

/-- No step changes the memory length, the call-stack capacity or the hooks attached
(rules R5, R32, R34). -/
def Obligations.StepKeepsConfiguration : Prop :=
  ∀ s t : State, step s = .next t → t.cfg = s.cfg

/-- How a STEP can end (rule R92): in a next state, or inside a hook. With no hook attached it always
ends in a next state. -/
def Obligations.StepEndsUnlessAHookStopsIt : Prop :=
  (∀ s : State, s.cfg.sensePresent = false → s.cfg.emitPresent = false → ∃ t, step s = .next t) ∧
  (∀ s : State, (∃ t, step s = .next t) ∨ step s = .fault .hookNeverReturns ∨
    step s = .refused .hookBreaksDuty)

/-- Register names wrap modulo 128, for reads and writes alike (rules R21, R71): an operand byte names
register `b mod 128`, and clearing bit 7 of every register operand byte changes nothing an instruction
does. -/
def Obligations.RegisterNamesWrapModulo128 : Prop :=
  (∀ b : Byte, (reg b).val = b.toNat % 128) ∧
  ∀ (i : Instr) (s : State), exec (lowNames i) s = exec i s

/-- Faults are precise (rules R86, R203): an instruction that faults has changed no memory, port,
stack entry or depth, called no hook, and written no register but the PC and, for BLK, the label
register. -/
def Obligations.FaultChangesOnlyPcAndLabel : Prop :=
  ∀ (i : Instr) (s t : State), exec i s = .next t → s.code = .noFault → t.code ≠ .noFault →
    t.halted = true ∧ SameMemory s t ∧ SameStack s t ∧ SamePorts s t ∧ t.cfg = s.cfg ∧
    ∀ r, r ≠ pcReg → (∀ l, i = .blk l → r ≠ reg l) → t.getReg r = s.getReg r

/-- The dead call-stack entries are unobservable (rule R33): two states that agree on all but them do
the same, and stay so. -/
def Obligations.DeadStackEntriesAreUnobservable : Prop :=
  ∀ s u : State, s.stackOk → SameButDeadStack s u →
    (∀ t, step s = .next t → ∃ v, step u = .next v ∧ SameButDeadStack t v) ∧
    (∀ f, step s = .fault f → step u = .fault f) ∧
    (∀ r, step s = .refused r → step u = .refused r)

/-- RUN (rules R91, R216): on a stopped CORE it returns at once; it ends in at most one state, and in
exactly one of the ways a run can end. -/
def Obligations.RunEndsInOneWay : Prop :=
  (∀ (n : Nat) (s : State), s.stopped = true → run n s = .next s) ∧
  (∀ s t u : State, RunEndsIn s t → RunEndsIn s u → t = u) ∧
  (∀ s t : State, RunEndsIn s t → ∃ e, t.runEnd = some e)

/-- The PC is a register like any other (rules R24, R25). Every instruction a STEP runs meets it at the
address after the instruction; an operand byte that names register `0x2E` reads it, and a write through
such a byte sets it, a jump, while a write through any other leaves it. With LI mode `m` worked out, as
destination and as source. -/
def Obligations.PcReadsNextAddressAndJumpsWhenWritten : Prop :=
  (∀ (s : State) (i : Instr), s.stopped = false → BytesAt s (encode i) →
    ∃ u, step s = exec i u ∧ u.pc = s.pc + BitVec.ofNat 32 (encode i).length ∧
      OnlyRegs [pcReg] s u) ∧
  (∀ (u : State) (b : Byte) (v : Word),
    (b.toNat % 128 = 0x2E → u.x b = u.pc ∧ (u.setX b v).pc = v) ∧
    (b.toNat % 128 ≠ 0x2E → (u.setX b v).pc = u.pc)) ∧
  (∀ (s : State) (d v : Byte), s.stopped = false →
    (BytesAt s [0x23, d, 0x6D, 0x2E] → ∃ t, step s = .next t ∧ t.x d = s.pc + 4) ∧
    (BytesAt s [0x23, 0x2E, 0x6D, v] → ∃ t, step s = .next t ∧
      t.pc = if reg v = pcReg then s.pc + 4 else s.x v))
end

