-- ==== Sys2Proof/Laws/Decode.lean ====
section
/-! SUPPORT. What a decode can end in, for any byte source: which bytes were taken from it. -/

namespace Sys2Proof

/-- The bytes `bs` are taken from the source one by one, which then stands at `t`. -/
inductive Takes {σ : Type} (next : σ → Option (Byte × σ)) : σ → List Byte → σ → Prop
  | nil (s : σ) : Takes next s [] s
  | cons {s u t : σ} {b : Byte} {bs : List Byte} (h : next s = some (b, u))
      (hs : Takes next u bs t) : Takes next s (b :: bs) t

section Maps

@[simp] theorem opcodeForm_halt : opcodeForm 0x00#8 = some (.none0 .halt) := rfl
@[simp] theorem opcodeForm_nopHt : opcodeForm 0x09#8 = some (.none0 .nopHt) := rfl
@[simp] theorem opcodeForm_nopLf : opcodeForm 0x0A#8 = some (.none0 .nopLf) := rfl
@[simp] theorem opcodeForm_nopVt : opcodeForm 0x0B#8 = some (.none0 .nopVt) := rfl
@[simp] theorem opcodeForm_nopFf : opcodeForm 0x0C#8 = some (.none0 .nopFf) := rfl
@[simp] theorem opcodeForm_nopCr : opcodeForm 0x0D#8 = some (.none0 .nopCr) := rfl
@[simp] theorem opcodeForm_nopSp : opcodeForm 0x20#8 = some (.none0 .nopSp) := rfl
@[simp] theorem opcodeForm_br : opcodeForm 0x21#8 = some (.four .br) := rfl
@[simp] theorem opcodeForm_immediate : opcodeForm 0x23#8 = some .immediate := rfl
@[simp] theorem opcodeForm_mod : opcodeForm 0x25#8 = some (.three .mod) := rfl
@[simp] theorem opcodeForm_and : opcodeForm 0x26#8 = some (.three .and) := rfl
@[simp] theorem opcodeForm_call : opcodeForm 0x28#8 = some (.one .call) := rfl
@[simp] theorem opcodeForm_ret : opcodeForm 0x29#8 = some (.none0 .ret) := rfl
@[simp] theorem opcodeForm_mul : opcodeForm 0x2A#8 = some (.three .mul) := rfl
@[simp] theorem opcodeForm_add : opcodeForm 0x2B#8 = some (.three .add) := rfl
@[simp] theorem opcodeForm_inp : opcodeForm 0x2C#8 = some (.two .inp) := rfl
@[simp] theorem opcodeForm_sub : opcodeForm 0x2D#8 = some (.three .sub) := rfl
@[simp] theorem opcodeForm_div : opcodeForm 0x2F#8 = some (.three .div) := rfl
@[simp] theorem opcodeForm_label : opcodeForm 0x3A#8 = some (.one .label) := rfl
@[simp] theorem opcodeForm_out : opcodeForm 0x3B#8 = some (.two .out) := rfl
@[simp] theorem opcodeForm_shl : opcodeForm 0x3C#8 = some (.three .shl) := rfl
@[simp] theorem opcodeForm_shr : opcodeForm 0x3E#8 = some (.three .shr) := rfl
@[simp] theorem opcodeForm_skip : opcodeForm 0x3F#8 = some (.three .skip) := rfl
@[simp] theorem opcodeForm_jmp : opcodeForm 0x40#8 = some (.one .jmp) := rfl
@[simp] theorem opcodeForm_ld : opcodeForm 0x5B#8 = some (.two .ld) := rfl
@[simp] theorem opcodeForm_st : opcodeForm 0x5D#8 = some (.two .st) := rfl
@[simp] theorem opcodeForm_xor : opcodeForm 0x5E#8 = some (.three .xor) := rfl
@[simp] theorem opcodeForm_blk : opcodeForm 0x7B#8 = some (.one .blk) := rfl
@[simp] theorem opcodeForm_or : opcodeForm 0x7C#8 = some (.three .or) := rfl
@[simp] theorem opcodeForm_endMark : opcodeForm 0x7D#8 = some (.one .endMark) := rfl
@[simp] theorem opcodeForm_not : opcodeForm 0x7E#8 = some (.two .not) := rfl
@[simp] theorem modePayload_liR : modePayload 0x72#8 = some (.byte .liR) := rfl
@[simp] theorem modePayload_liD : modePayload 0x64#8 = some (.byte .liD) := rfl
@[simp] theorem modePayload_liX : modePayload 0x78#8 = some (.byte .liX) := rfl
@[simp] theorem modePayload_liW : modePayload 0x77#8 = some .word := rfl
@[simp] theorem modePayload_liM : modePayload 0x6D#8 = some (.byte .liM) := rfl
@[simp] theorem modePayload_liI : modePayload 0x69#8 = some (.byte .liI) := rfl

end Maps

/-- What the encoder lays out for an opcode of this form. -/
def Form.Encodes (op : Byte) : Form → Prop
  | .none0 i => encode i = [op]
  | .one mk => ∀ b1, encode (mk b1) = [op, b1]
  | .two mk => ∀ b1 b2, encode (mk b1 b2) = [op, b1, b2]
  | .three mk => ∀ b1 b2 b3, encode (mk b1 b2 b3) = [op, b1, b2, b3]
  | .four mk => ∀ b1 b2 b3 b4, encode (mk b1 b2 b3 b4) = [op, b1, b2, b3, b4]
  | .immediate => op = 0x23

/-- What the encoder lays out for an LI mode of this payload. -/
def Payload.Encodes (m : Byte) : Payload → Prop
  | .byte mk => ∀ d v, encode (mk d v) = [0x23, d, m, v]
  | .word => m = 0x77

/-- The opcode map and the encoder agree. -/
theorem opcodeForm_encodes {op : Byte} {f : Form} (h : opcodeForm op = some f) : f.Encodes op := by
  unfold opcodeForm at h
  split at h <;> simp_all [Form.Encodes] <;> subst h <;> simp [encode]

/-- The mode map and the encoder agree. -/
theorem modePayload_encodes {m : Byte} {p : Payload} (h : modePayload m = some p) :
    p.Encodes m := by
  unfold modePayload at h
  split at h <;> simp_all [Payload.Encodes] <;> subst h <;> simp [encode]

section Inversion
variable {σ : Type} {next : σ → Option (Byte × σ)}

/-- What a decode that ends so says of the bytes taken from the source `s`. -/
def Decoded.Says (next : σ → Option (Byte × σ)) (s : σ) : Decoded σ → Prop
  | .ok i t => Takes next s (encode i) t
  | .truncated t => ∃ bs, Takes next s bs t ∧ next t = none
  | .invalidOpcode t => ∃ op, Takes next s [op] t ∧ opcodeForm op = none
  | .invalidMode t => ∃ d m, Takes next s [0x23, d, m] t ∧ modePayload m = none

theorem Takes.append {s u t : σ} {as bs : List Byte} (h : Takes next s as u)
    (h' : Takes next u bs t) : Takes next s (as ++ bs) t := by
  induction h with
  | nil => exact h'
  | cons h1 _ ih => exact .cons h1 (ih h')

/-- Taking one more byte: it suffices to look at the decode that goes on after it. -/
theorem takeByte_says {s u : σ} {bs : List Byte} {k : Byte → σ → Decoded σ}
    (h : Takes next s bs u)
    (hk : ∀ b t, Takes next s (bs ++ [b]) t → (k b t).Says next s) :
    (takeByte next u k).Says next s := by
  unfold takeByte
  split
  · exact ⟨bs, h, by assumption⟩
  · rename_i b t hb
    exact hk b t (h.append (.cons hb (.nil t)))

/-- Every way a decode can end, and the bytes it took. -/
theorem decodeFrom_says (s : σ) : (decodeFrom next s).Says next s := by
  unfold decodeFrom
  refine takeByte_says (.nil s) fun op s1 h1 => ?_
  split
  · exact ⟨op, h1, by assumption⟩
  · rename_i f hf
    have he := opcodeForm_encodes hf
    cases f with
    | none0 i => simpa [decodeOperands, Decoded.Says, show encode i = [op] from he] using h1
    | one mk =>
      refine takeByte_says h1 fun b1 s2 h2 => ?_
      simpa [Decoded.Says, show encode (mk b1) = _ from he b1] using h2
    | two mk =>
      refine takeByte_says h1 fun b1 s2 h2 => takeByte_says h2 fun b2 s3 h3 => ?_
      simpa [Decoded.Says, show encode (mk b1 b2) = _ from he b1 b2] using h3
    | three mk =>
      refine takeByte_says h1 fun b1 s2 h2 => takeByte_says h2 fun b2 s3 h3 =>
        takeByte_says h3 fun b3 s4 h4 => ?_
      simpa [Decoded.Says, show encode (mk b1 b2 b3) = _ from he b1 b2 b3] using h4
    | four mk =>
      refine takeByte_says h1 fun b1 s2 h2 => takeByte_says h2 fun b2 s3 h3 =>
        takeByte_says h3 fun b3 s4 h4 => takeByte_says h4 fun b4 s5 h5 => ?_
      simpa [Decoded.Says, show encode (mk b1 b2 b3 b4) = _ from he b1 b2 b3 b4] using h5
    | immediate =>
      obtain rfl : op = 0x23 := he
      refine takeByte_says h1 fun d s2 h2 => takeByte_says h2 fun m s3 h3 => ?_
      split
      · exact ⟨d, m, by simpa using h3, by assumption⟩
      · rename_i mk hm
        have hp : ∀ d v, encode (mk d v) = [0x23, d, m, v] := modePayload_encodes hm
        refine takeByte_says h3 fun v s4 h4 => ?_
        simpa [Decoded.Says, hp] using h4
      · rename_i hm
        obtain rfl : m = 0x77 := modePayload_encodes hm
        refine takeByte_says h3 fun v0 s4 h4 => takeByte_says h4 fun v1 s5 h5 =>
          takeByte_says h5 fun v2 s6 h6 => takeByte_says h6 fun v3 s7 h7 => ?_
        simpa [Decoded.Says, encode] using h7

end Inversion

section Forward
variable {σ : Type} {next : σ → Option (Byte × σ)}

theorem takes_nil_iff {s t : σ} : Takes next s [] t ↔ t = s :=
  ⟨fun h => by cases h; rfl, fun h => h ▸ .nil t⟩

theorem takes_cons_iff {s t : σ} {b : Byte} {bs : List Byte} :
    Takes next s (b :: bs) t ↔ ∃ u, next s = some (b, u) ∧ Takes next u bs t :=
  ⟨fun h => by cases h with | cons h1 h2 => exact ⟨_, h1, h2⟩, fun ⟨_, h1, h2⟩ => .cons h1 h2⟩

theorem takeByte_some {s u : σ} {b : Byte} (h : next s = some (b, u)) (k : Byte → σ → Decoded σ) :
    takeByte next s k = k b u := by
  unfold takeByte; rw [h]

theorem takeByte_none {s : σ} (h : next s = none) (k : Byte → σ → Decoded σ) :
    takeByte next s k = .truncated s := by
  unfold takeByte; rw [h]

/-- A source that gives the bytes of an instruction is decoded to it. -/
theorem decodeFrom_of_takes {i : Instr} {s t : σ} (h : Takes next s (encode i) t) :
    decodeFrom next s = .ok i t := by
  cases i <;> simp only [encode, takes_cons_iff, takes_nil_iff] at h <;>
    (repeat (obtain ⟨_, _, h⟩ := h)) <;>
    simp [decodeFrom, takeByte, decodeOperands, decodeImmediate, *]

/-- A source that gives only the first bytes of an instruction ends the decode there. -/
theorem decodeFrom_truncated {i : Instr} {s t : σ} {k : Nat} (hk : k < (encode i).length)
    (h : Takes next s ((encode i).take k) t) (hn : next t = none) :
    decodeFrom next s = .truncated t := by
  cases i <;> simp only [encode, List.length_cons, List.length_nil] at hk h <;>
    interval_cases k <;> simp only [List.take, takes_cons_iff, takes_nil_iff] at h <;>
    (repeat (obtain ⟨_, _, h⟩ := h)) <;>
    simp [decodeFrom, takeByte, decodeOperands, decodeImmediate, *]
end Forward

/-! ## Two sources that give the same bytes -/

/-- A decode, with the source seen through `f`. -/
def Decoded.map {σ τ : Type} (f : σ → τ) : Decoded σ → Decoded τ
  | .ok i t => .ok i (f t)
  | .truncated t => .truncated (f t)
  | .invalidOpcode t => .invalidOpcode (f t)
  | .invalidMode t => .invalidMode (f t)

section Map
variable {σ τ : Type} {next : σ → Option (Byte × σ)} {next' : τ → Option (Byte × τ)} {f : σ → τ}

theorem takeByte_map (hf : ∀ s, next' (f s) = (next s).map fun p => (p.1, f p.2)) (s : σ)
    {k : Byte → σ → Decoded σ} {k' : Byte → τ → Decoded τ}
    (hk : ∀ b t, k' b (f t) = (k b t).map f) :
    takeByte next' (f s) k' = (takeByte next s k).map f := by
  unfold takeByte
  rw [hf]
  cases next s with
  | none => rfl
  | some p => exact hk p.1 p.2

/-- Sources that give the same bytes are decoded alike. -/
theorem decodeFrom_map (hf : ∀ s, next' (f s) = (next s).map fun p => (p.1, f p.2)) (s : σ) :
    decodeFrom next' (f s) = (decodeFrom next s).map f := by
  have ht := fun (s : σ) k k' => @takeByte_map σ τ next next' f hf s k k'
  unfold decodeFrom
  refine ht s _ _ fun op s1 => ?_
  cases opcodeForm op with
  | none => rfl
  | some fm =>
    cases fm with
    | none0 i => rfl
    | one mk => exact ht _ _ _ fun _ _ => rfl
    | two mk => exact ht _ _ _ fun _ _ => ht _ _ _ fun _ _ => rfl
    | three mk => exact ht _ _ _ fun _ _ => ht _ _ _ fun _ _ => ht _ _ _ fun _ _ => rfl
    | four mk =>
      exact ht _ _ _ fun _ _ => ht _ _ _ fun _ _ => ht _ _ _ fun _ _ => ht _ _ _ fun _ _ => rfl
    | immediate =>
      refine ht _ _ _ fun d s2 => ht _ _ _ fun m s3 => ?_
      cases modePayload m with
      | none => rfl
      | some p =>
        cases p with
        | byte mk => exact ht _ _ _ fun _ _ => rfl
        | word =>
          exact ht _ _ _ fun _ _ => ht _ _ _ fun _ _ => ht _ _ _ fun _ _ => ht _ _ _ fun _ _ => rfl

end Map

end Sys2Proof
end

