-- ==== Sys2Proof/Laws/State.lean ====
section
/-! SUPPORT. One lemma per field per update of State, so that no proof unfolds a record update; and the
one spelling of register access: `setPc`, `setX` and `fetched` are written `setReg`, `pc` and `x` are
written `getReg`. -/

namespace Sys2Proof.Machine

section Spelling
variable (s : State)

@[simp] theorem State.setPc_eq (v : Word) : s.setPc v = s.setReg pcReg v := rfl
@[simp] theorem State.setX_eq (b : Byte) (v : Word) : s.setX b v = s.setReg (reg b) v := rfl
@[simp] theorem State.pc_eq : s.pc = s.getReg pcReg := rfl
@[simp] theorem State.x_eq (b : Byte) : s.x b = s.getReg (reg b) := rfl

end Spelling

section SetReg
variable (s : State) (r : Fin 128) (v : Word)

@[simp] theorem State.setReg_cfg : (s.setReg r v).cfg = s.cfg := rfl
@[simp] theorem State.setReg_regs : (s.setReg r v).regs = s.regs.set r v := rfl
@[simp] theorem State.setReg_halted : (s.setReg r v).halted = s.halted := rfl
@[simp] theorem State.setReg_code : (s.setReg r v).code = s.code := rfl
@[simp] theorem State.setReg_stack : (s.setReg r v).stack = s.stack := rfl
@[simp] theorem State.setReg_depth : (s.setReg r v).depth = s.depth := rfl
@[simp] theorem State.setReg_ports : (s.setReg r v).ports = s.ports := rfl
@[simp] theorem State.setReg_mem : (s.setReg r v).mem = s.mem := rfl
@[simp] theorem State.setReg_hostTerminated : (s.setReg r v).hostTerminated = s.hostTerminated := rfl
@[simp] theorem State.setReg_hookCalls : (s.setReg r v).hookCalls = s.hookCalls := rfl
@[simp] theorem State.setReg_hostAnswers : (s.setReg r v).hostAnswers = s.hostAnswers := rfl
@[simp] theorem State.setReg_memSize : (s.setReg r v).memSize = s.memSize := rfl

@[simp] theorem State.getReg_setReg_self : (s.setReg r v).getReg r = v := by
  simp [State.getReg, State.setReg]

theorem State.getReg_setReg_ne {q : Fin 128} (h : q ≠ r) :
    (s.setReg r v).getReg q = s.getReg q := by
  have h' : r.val ≠ q.val := fun e => h (Fin.ext e.symm)
  simp [State.getReg, State.setReg, h']

theorem State.getReg_setReg (q : Fin 128) :
    (s.setReg r v).getReg q = if q = r then v else s.getReg q := by
  by_cases h : q = r
  · subst h; simp
  · simp [h, State.getReg_setReg_ne s r v h]

/-- A register file is known by its registers. -/
theorem State.regs_ext {s t : State} (h : ∀ r, t.getReg r = s.getReg r) : t.regs = s.regs := by
  apply Vector.ext
  intro i hi
  exact h ⟨i, hi⟩

@[simp] theorem State.setReg_setReg (w : Word) : (s.setReg r v).setReg r w = s.setReg r w := by
  simp [State.setReg]

@[simp] theorem State.setReg_getReg : s.setReg r (s.getReg r) = s := by
  simp [State.setReg, State.getReg]
@[simp] theorem State.setReg_memRead (x : Word) : (s.setReg r v).memRead x = s.memRead x := rfl
@[simp] theorem State.setReg_wrap (x : Word) : (s.setReg r v).wrap x = s.wrap x := rfl
@[simp] theorem State.setReg_getPort (i : Byte) : (s.setReg r v).getPort i = s.getPort i := rfl
@[simp] theorem State.setReg_stackEntry (i : Nat) : (s.setReg r v).stackEntry i = s.stackEntry i := rfl

end SetReg

section MemWrite
variable (s : State) (a : Word) (b : Byte)

@[simp] theorem State.memWrite_cfg : (s.memWrite a b).cfg = s.cfg := rfl
@[simp] theorem State.memWrite_regs : (s.memWrite a b).regs = s.regs := rfl
@[simp] theorem State.memWrite_halted : (s.memWrite a b).halted = s.halted := rfl
@[simp] theorem State.memWrite_code : (s.memWrite a b).code = s.code := rfl
@[simp] theorem State.memWrite_stack : (s.memWrite a b).stack = s.stack := rfl
@[simp] theorem State.memWrite_depth : (s.memWrite a b).depth = s.depth := rfl
@[simp] theorem State.memWrite_ports : (s.memWrite a b).ports = s.ports := rfl
@[simp] theorem State.memWrite_mem : (s.memWrite a b).mem = s.mem.write (s.wrap a) b := rfl
@[simp] theorem State.memWrite_hostTerminated : (s.memWrite a b).hostTerminated = s.hostTerminated := rfl
@[simp] theorem State.memWrite_hookCalls : (s.memWrite a b).hookCalls = s.hookCalls := rfl
@[simp] theorem State.memWrite_hostAnswers : (s.memWrite a b).hostAnswers = s.hostAnswers := rfl
@[simp] theorem State.memWrite_memSize : (s.memWrite a b).memSize = s.memSize := rfl
@[simp] theorem State.memWrite_getReg (r : Fin 128) : (s.memWrite a b).getReg r = s.getReg r := rfl
@[simp] theorem State.memWrite_wrap (x : Word) : (s.memWrite a b).wrap x = s.wrap x := rfl
@[simp] theorem State.memWrite_getPort (i : Byte) : (s.memWrite a b).getPort i = s.getPort i := rfl
@[simp] theorem State.memWrite_stackEntry (i : Nat) : (s.memWrite a b).stackEntry i = s.stackEntry i := rfl

end MemWrite

section SetPort
variable (s : State) (q : Byte) (v : Word)

@[simp] theorem State.setPort_cfg : (s.setPort q v).cfg = s.cfg := rfl
@[simp] theorem State.setPort_regs : (s.setPort q v).regs = s.regs := rfl
@[simp] theorem State.setPort_halted : (s.setPort q v).halted = s.halted := rfl
@[simp] theorem State.setPort_code : (s.setPort q v).code = s.code := rfl
@[simp] theorem State.setPort_stack : (s.setPort q v).stack = s.stack := rfl
@[simp] theorem State.setPort_depth : (s.setPort q v).depth = s.depth := rfl
@[simp] theorem State.setPort_ports : (s.setPort q v).ports = s.ports.set q.toNat v q.isLt := rfl
@[simp] theorem State.setPort_mem : (s.setPort q v).mem = s.mem := rfl
@[simp] theorem State.setPort_hostTerminated : (s.setPort q v).hostTerminated = s.hostTerminated := rfl
@[simp] theorem State.setPort_hookCalls : (s.setPort q v).hookCalls = s.hookCalls := rfl
@[simp] theorem State.setPort_hostAnswers : (s.setPort q v).hostAnswers = s.hostAnswers := rfl
@[simp] theorem State.setPort_memSize : (s.setPort q v).memSize = s.memSize := rfl
@[simp] theorem State.setPort_getReg (r : Fin 128) : (s.setPort q v).getReg r = s.getReg r := rfl
@[simp] theorem State.setPort_memRead (x : Word) : (s.setPort q v).memRead x = s.memRead x := rfl
@[simp] theorem State.setPort_wrap (x : Word) : (s.setPort q v).wrap x = s.wrap x := rfl
@[simp] theorem State.setPort_stackEntry (i : Nat) : (s.setPort q v).stackEntry i = s.stackEntry i := rfl

end SetPort

section RaiseFault
variable (s : State) (c : StatusCode)

@[simp] theorem raiseFault_cfg : (raiseFault c s).cfg = s.cfg := rfl
@[simp] theorem raiseFault_regs : (raiseFault c s).regs = s.regs := rfl
@[simp] theorem raiseFault_halted : (raiseFault c s).halted = true := rfl
@[simp] theorem raiseFault_code : (raiseFault c s).code = c := rfl
@[simp] theorem raiseFault_stack : (raiseFault c s).stack = s.stack := rfl
@[simp] theorem raiseFault_depth : (raiseFault c s).depth = s.depth := rfl
@[simp] theorem raiseFault_ports : (raiseFault c s).ports = s.ports := rfl
@[simp] theorem raiseFault_mem : (raiseFault c s).mem = s.mem := rfl
@[simp] theorem raiseFault_hostTerminated : (raiseFault c s).hostTerminated = s.hostTerminated := rfl
@[simp] theorem raiseFault_hookCalls : (raiseFault c s).hookCalls = s.hookCalls := rfl
@[simp] theorem raiseFault_hostAnswers : (raiseFault c s).hostAnswers = s.hostAnswers := rfl
@[simp] theorem raiseFault_memSize : (raiseFault c s).memSize = s.memSize := rfl
@[simp] theorem raiseFault_getReg (r : Fin 128) : (raiseFault c s).getReg r = s.getReg r := rfl
@[simp] theorem raiseFault_memRead (x : Word) : (raiseFault c s).memRead x = s.memRead x := rfl
@[simp] theorem raiseFault_wrap (x : Word) : (raiseFault c s).wrap x = s.wrap x := rfl
@[simp] theorem raiseFault_getPort (i : Byte) : (raiseFault c s).getPort i = s.getPort i := rfl
@[simp] theorem raiseFault_stackEntry (i : Nat) : (raiseFault c s).stackEntry i = s.stackEntry i := rfl

end RaiseFault

section Halt
variable (s : State)

@[simp] theorem State.halt_cfg : (s.halt).cfg = s.cfg := rfl
@[simp] theorem State.halt_regs : (s.halt).regs = s.regs := rfl
@[simp] theorem State.halt_halted : (s.halt).halted = true := rfl
@[simp] theorem State.halt_code : (s.halt).code = s.code := rfl
@[simp] theorem State.halt_stack : (s.halt).stack = s.stack := rfl
@[simp] theorem State.halt_depth : (s.halt).depth = s.depth := rfl
@[simp] theorem State.halt_ports : (s.halt).ports = s.ports := rfl
@[simp] theorem State.halt_mem : (s.halt).mem = s.mem := rfl
@[simp] theorem State.halt_hostTerminated : (s.halt).hostTerminated = s.hostTerminated := rfl
@[simp] theorem State.halt_hookCalls : (s.halt).hookCalls = s.hookCalls := rfl
@[simp] theorem State.halt_hostAnswers : (s.halt).hostAnswers = s.hostAnswers := rfl
@[simp] theorem State.halt_memSize : (s.halt).memSize = s.memSize := rfl
@[simp] theorem State.halt_getReg (r : Fin 128) : (s.halt).getReg r = s.getReg r := rfl
@[simp] theorem State.halt_memRead (x : Word) : (s.halt).memRead x = s.memRead x := rfl
@[simp] theorem State.halt_wrap (x : Word) : (s.halt).wrap x = s.wrap x := rfl
@[simp] theorem State.halt_getPort (i : Byte) : (s.halt).getPort i = s.getPort i := rfl
@[simp] theorem State.halt_stackEntry (i : Nat) : (s.halt).stackEntry i = s.stackEntry i := rfl

end Halt

section Restart
variable (s : State)

@[simp] theorem State.restart_cfg : (s.restart).cfg = s.cfg := rfl
@[simp] theorem State.restart_regs : (s.restart).regs = s.regs := rfl
@[simp] theorem State.restart_halted : (s.restart).halted = false := rfl
@[simp] theorem State.restart_code : (s.restart).code = .noFault := rfl
@[simp] theorem State.restart_stack : (s.restart).stack = s.stack := rfl
@[simp] theorem State.restart_depth : (s.restart).depth = s.depth := rfl
@[simp] theorem State.restart_ports : (s.restart).ports = s.ports := rfl
@[simp] theorem State.restart_mem : (s.restart).mem = s.mem := rfl
@[simp] theorem State.restart_hostTerminated : (s.restart).hostTerminated = false := rfl
@[simp] theorem State.restart_hookCalls : (s.restart).hookCalls = s.hookCalls := rfl
@[simp] theorem State.restart_hostAnswers : (s.restart).hostAnswers = s.hostAnswers := rfl
@[simp] theorem State.restart_memSize : (s.restart).memSize = s.memSize := rfl
@[simp] theorem State.restart_getReg (r : Fin 128) : (s.restart).getReg r = s.getReg r := rfl
@[simp] theorem State.restart_memRead (x : Word) : (s.restart).memRead x = s.memRead x := rfl
@[simp] theorem State.restart_wrap (x : Word) : (s.restart).wrap x = s.wrap x := rfl
@[simp] theorem State.restart_getPort (i : Byte) : (s.restart).getPort i = s.getPort i := rfl
@[simp] theorem State.restart_stackEntry (i : Nat) : (s.restart).stackEntry i = s.stackEntry i := rfl

@[simp] theorem State.restart_stopped : (s.restart).stopped = false := rfl

end Restart

section Push
variable (s : State) (v : Word)

@[simp] theorem State.push_cfg : (s.push v).cfg = s.cfg := rfl
@[simp] theorem State.push_regs : (s.push v).regs = s.regs := rfl
@[simp] theorem State.push_halted : (s.push v).halted = s.halted := rfl
@[simp] theorem State.push_code : (s.push v).code = s.code := rfl
@[simp] theorem State.push_stack : (s.push v).stack = s.stack.set s.depth v := rfl
@[simp] theorem State.push_depth : (s.push v).depth = s.depth + 1 := rfl
@[simp] theorem State.push_ports : (s.push v).ports = s.ports := rfl
@[simp] theorem State.push_mem : (s.push v).mem = s.mem := rfl
@[simp] theorem State.push_hostTerminated : (s.push v).hostTerminated = s.hostTerminated := rfl
@[simp] theorem State.push_hookCalls : (s.push v).hookCalls = s.hookCalls := rfl
@[simp] theorem State.push_hostAnswers : (s.push v).hostAnswers = s.hostAnswers := rfl
@[simp] theorem State.push_memSize : (s.push v).memSize = s.memSize := rfl
@[simp] theorem State.push_getReg (r : Fin 128) : (s.push v).getReg r = s.getReg r := rfl
@[simp] theorem State.push_memRead (x : Word) : (s.push v).memRead x = s.memRead x := rfl
@[simp] theorem State.push_wrap (x : Word) : (s.push v).wrap x = s.wrap x := rfl
@[simp] theorem State.push_getPort (i : Byte) : (s.push v).getPort i = s.getPort i := rfl

end Push

section Pop
variable (s : State)

@[simp] theorem State.pop_cfg : (s.pop).cfg = s.cfg := rfl
@[simp] theorem State.pop_regs : (s.pop).regs = s.regs := rfl
@[simp] theorem State.pop_halted : (s.pop).halted = s.halted := rfl
@[simp] theorem State.pop_code : (s.pop).code = s.code := rfl
@[simp] theorem State.pop_stack : (s.pop).stack = s.stack := rfl
@[simp] theorem State.pop_depth : (s.pop).depth = s.depth - 1 := rfl
@[simp] theorem State.pop_ports : (s.pop).ports = s.ports := rfl
@[simp] theorem State.pop_mem : (s.pop).mem = s.mem := rfl
@[simp] theorem State.pop_hostTerminated : (s.pop).hostTerminated = s.hostTerminated := rfl
@[simp] theorem State.pop_hookCalls : (s.pop).hookCalls = s.hookCalls := rfl
@[simp] theorem State.pop_hostAnswers : (s.pop).hostAnswers = s.hostAnswers := rfl
@[simp] theorem State.pop_memSize : (s.pop).memSize = s.memSize := rfl
@[simp] theorem State.pop_getReg (r : Fin 128) : (s.pop).getReg r = s.getReg r := rfl
@[simp] theorem State.pop_memRead (x : Word) : (s.pop).memRead x = s.memRead x := rfl
@[simp] theorem State.pop_wrap (x : Word) : (s.pop).wrap x = s.wrap x := rfl
@[simp] theorem State.pop_getPort (i : Byte) : (s.pop).getPort i = s.getPort i := rfl
@[simp] theorem State.pop_stackEntry (i : Nat) : (s.pop).stackEntry i = s.stackEntry i := rfl

end Pop

section AfterCall
variable (s : State) (k : HookKind) (q : Byte)

@[simp] theorem State.afterCall_cfg : (s.afterCall k q).cfg = s.cfg := rfl
@[simp] theorem State.afterCall_regs : (s.afterCall k q).regs = s.regs := rfl
@[simp] theorem State.afterCall_halted : (s.afterCall k q).halted = s.halted := rfl
@[simp] theorem State.afterCall_code : (s.afterCall k q).code = s.code := rfl
@[simp] theorem State.afterCall_stack : (s.afterCall k q).stack = s.stack := rfl
@[simp] theorem State.afterCall_depth : (s.afterCall k q).depth = s.depth := rfl
@[simp] theorem State.afterCall_ports : (s.afterCall k q).ports = s.ports := rfl
@[simp] theorem State.afterCall_mem : (s.afterCall k q).mem = s.mem := rfl
@[simp] theorem State.afterCall_hostTerminated : (s.afterCall k q).hostTerminated = s.hostTerminated := rfl
@[simp] theorem State.afterCall_hookCalls : (s.afterCall k q).hookCalls = s.callsAfter k q := rfl
@[simp] theorem State.afterCall_hostAnswers : (s.afterCall k q).hostAnswers = s.hostAnswers.tail := rfl
@[simp] theorem State.afterCall_memSize : (s.afterCall k q).memSize = s.memSize := rfl
@[simp] theorem State.afterCall_getReg (r : Fin 128) : (s.afterCall k q).getReg r = s.getReg r := rfl
@[simp] theorem State.afterCall_memRead (x : Word) : (s.afterCall k q).memRead x = s.memRead x := rfl
@[simp] theorem State.afterCall_wrap (x : Word) : (s.afterCall k q).wrap x = s.wrap x := rfl
@[simp] theorem State.afterCall_getPort (i : Byte) : (s.afterCall k q).getPort i = s.getPort i := rfl
@[simp] theorem State.afterCall_stackEntry (i : Nat) : (s.afterCall k q).stackEntry i = s.stackEntry i := rfl

end AfterCall

section SetPorts
variable (s : State) (bank : Ports)

@[simp] theorem State.setPorts_cfg : (s.setPorts bank).cfg = s.cfg := rfl
@[simp] theorem State.setPorts_regs : (s.setPorts bank).regs = s.regs := rfl
@[simp] theorem State.setPorts_halted : (s.setPorts bank).halted = s.halted := rfl
@[simp] theorem State.setPorts_code : (s.setPorts bank).code = s.code := rfl
@[simp] theorem State.setPorts_stack : (s.setPorts bank).stack = s.stack := rfl
@[simp] theorem State.setPorts_depth : (s.setPorts bank).depth = s.depth := rfl
@[simp] theorem State.setPorts_ports : (s.setPorts bank).ports = bank := rfl
@[simp] theorem State.setPorts_mem : (s.setPorts bank).mem = s.mem := rfl
@[simp] theorem State.setPorts_hostTerminated : (s.setPorts bank).hostTerminated = s.hostTerminated := rfl
@[simp] theorem State.setPorts_hookCalls : (s.setPorts bank).hookCalls = s.hookCalls := rfl
@[simp] theorem State.setPorts_hostAnswers : (s.setPorts bank).hostAnswers = s.hostAnswers := rfl
@[simp] theorem State.setPorts_memSize : (s.setPorts bank).memSize = s.memSize := rfl
@[simp] theorem State.setPorts_getReg (r : Fin 128) : (s.setPorts bank).getReg r = s.getReg r := rfl
@[simp] theorem State.setPorts_memRead (x : Word) : (s.setPorts bank).memRead x = s.memRead x := rfl
@[simp] theorem State.setPorts_wrap (x : Word) : (s.setPorts bank).wrap x = s.wrap x := rfl
@[simp] theorem State.setPorts_stackEntry (i : Nat) : (s.setPorts bank).stackEntry i = s.stackEntry i := rfl

end SetPorts

section Terminate
variable (s : State)

@[simp] theorem State.terminate_cfg : (s.terminate).cfg = s.cfg := rfl
@[simp] theorem State.terminate_regs : (s.terminate).regs = s.regs := rfl
@[simp] theorem State.terminate_halted : (s.terminate).halted = s.halted := rfl
@[simp] theorem State.terminate_code : (s.terminate).code = s.code := rfl
@[simp] theorem State.terminate_stack : (s.terminate).stack = s.stack := rfl
@[simp] theorem State.terminate_depth : (s.terminate).depth = s.depth := rfl
@[simp] theorem State.terminate_ports : (s.terminate).ports = s.ports := rfl
@[simp] theorem State.terminate_mem : (s.terminate).mem = s.mem := rfl
@[simp] theorem State.terminate_hostTerminated : (s.terminate).hostTerminated = true := rfl
@[simp] theorem State.terminate_hookCalls : (s.terminate).hookCalls = s.hookCalls := rfl
@[simp] theorem State.terminate_hostAnswers : (s.terminate).hostAnswers = s.hostAnswers := rfl
@[simp] theorem State.terminate_memSize : (s.terminate).memSize = s.memSize := rfl
@[simp] theorem State.terminate_getReg (r : Fin 128) : (s.terminate).getReg r = s.getReg r := rfl
@[simp] theorem State.terminate_memRead (x : Word) : (s.terminate).memRead x = s.memRead x := rfl
@[simp] theorem State.terminate_wrap (x : Word) : (s.terminate).wrap x = s.wrap x := rfl
@[simp] theorem State.terminate_getPort (i : Byte) : (s.terminate).getPort i = s.getPort i := rfl
@[simp] theorem State.terminate_stackEntry (i : Nat) : (s.terminate).stackEntry i = s.stackEntry i := rfl

end Terminate

@[simp] theorem State.getPort_setPort_self (s : State) (q : Byte) (v : Word) :
    (s.setPort q v).getPort q = v := by
  simp [State.getPort, State.setPort]

theorem State.getPort_setPort_ne (s : State) {q i : Byte} (v : Word) (h : i ≠ q) :
    (s.setPort q v).getPort i = s.getPort i := by
  have h' : q.toNat ≠ i.toNat := fun e => h (BitVec.eq_of_toNat_eq e.symm)
  simp [State.getPort, State.setPort, h']

theorem State.stackEntry_push (s : State) (v : Word) (h : s.depth < s.stack.length) (k : Nat) :
    (s.push v).stackEntry k = if k = s.depth then v else s.stackEntry k := by
  by_cases hk : k = s.depth
  · subst hk; simp [State.stackEntry, State.push, h]
  · have : s.depth ≠ k := fun e => hk e.symm
    simp [State.stackEntry, State.push, hk, this]

end Sys2Proof.Machine
end

