-- ==== Sys2Proof/Laws/Fetch.lean ====
section
/-! SUPPORT. The fetch primitive as a byte source, and what the decode phase and the skip can do. -/

namespace Sys2Proof.Machine

@[simp] theorem State.fetched_zero (s : State) : s.fetched 0 = s := by
  simp [State.fetched]

@[simp] theorem State.fetched_fetched (s : State) (j k : Nat) :
    (s.fetched j).fetched k = s.fetched (j + k) := by
  simp [State.fetched, BitVec.ofNat_add, BitVec.add_assoc]

@[simp] theorem State.ahead_zero (s : State) : s.ahead 0 = s.pc.toNat := by
  simp [State.ahead]

@[simp] theorem State.fetched_ahead (s : State) (j k : Nat) :
    (s.fetched j).ahead k = s.ahead (j + k) := by
  simp [State.fetched, State.ahead, BitVec.ofNat_add, BitVec.add_assoc]

@[simp] theorem State.fetched_mem (s : State) (k : Nat) : (s.fetched k).mem = s.mem := rfl
@[simp] theorem State.fetched_memSize (s : State) (k : Nat) : (s.fetched k).memSize = s.memSize := rfl
@[simp] theorem State.fetched_pc (s : State) (k : Nat) :
    (s.fetched k).pc = s.pc + BitVec.ofNat 32 k := by simp [State.fetched]

/-- `Fetch()` in terms of the address it reads (rules R80, R82). -/
theorem fetch_eq (s : State) :
    fetch s = if s.memSize ≤ s.ahead 0 then none else some (s.mem.read (s.ahead 0), s.fetched 1) := by
  rw [State.ahead_zero]; rfl

/-- A byte is fetched exactly where it stands below the end of memory. -/
theorem fetch_some {s t : State} {b : Byte} (h : fetch s = some (b, t)) :
    s.ahead 0 < s.memSize ∧ s.mem.read (s.ahead 0) = b ∧ t = s.fetched 1 := by
  rw [fetch_eq] at h
  split at h
  · cases h
  · cases h; exact ⟨by omega, rfl, rfl⟩

/-- No byte is fetched exactly beyond the end of memory. -/
theorem fetch_none {s : State} (h : fetch s = none) : OutOfMemory s 0 := by
  rw [fetch_eq] at h
  split at h
  · assumption
  · cases h

theorem bytesAt_cons {s : State} {b : Byte} {bs : List Byte} :
    BytesAt s (b :: bs) ↔
      (s.ahead 0 < s.memSize ∧ s.mem.read (s.ahead 0) = b) ∧ BytesAt (s.fetched 1) bs := by
  constructor
  · intro h
    refine ⟨h 0 b rfl, fun k c hc => ?_⟩
    have := h (k + 1) c (by simpa using hc)
    simpa [Nat.add_comm] using this
  · rintro ⟨h0, h1⟩ k c hc
    cases k with
    | zero => simp only [List.getElem?_cons_zero, Option.some.injEq] at hc; exact hc ▸ h0
    | succ k =>
      have := h1 k c (by simpa using hc)
      simpa [Nat.add_comm] using this

/-- Bytes fetched one by one: they stand at the PC, and the PC has moved past them. -/
theorem takes_fetch {s t : State} {bs : List Byte} (h : Takes fetch s bs t) :
    BytesAt s bs ∧ t = s.fetched bs.length := by
  induction h with
  | nil s => exact ⟨fun k b hk => by simp at hk, by simp⟩
  | cons h1 _ ih =>
    obtain ⟨ha, hb, rfl⟩ := fetch_some h1
    refine ⟨bytesAt_cons.mpr ⟨⟨ha, hb⟩, ih.1⟩, ?_⟩
    rw [ih.2, State.fetched_fetched, List.length_cons, Nat.add_comm]

/-- Bytes that stand at the PC are fetched one by one. -/
theorem takes_of_bytesAt {s : State} {bs : List Byte} (h : BytesAt s bs) :
    Takes fetch s bs (s.fetched bs.length) := by
  induction bs generalizing s with
  | nil => simpa using Takes.nil s
  | cons b bs ih =>
    obtain ⟨⟨h0, rfl⟩, h1⟩ := bytesAt_cons.mp h
    have h2 := ih h1
    rw [State.fetched_fetched, Nat.add_comm] at h2
    exact .cons (by rw [fetch_eq, if_neg (by omega)]) h2

/-- Everything the decode phase can do: an instruction whose bytes stand at the PC, or a fault after
the bytes fetched so far (rules R80, R85, R86, R127, R192). -/
theorem fetchInstr_cases (s : State) :
    (∃ i, fetchInstr s = .ready i (s.fetched (encode i).length) ∧ BytesAt s (encode i)) ∨
    (∃ k, fetchInstr s = .faulted (raiseFault .bounds (s.fetched k)) ∧ OutOfMemory s k) ∨
    (∃ op, fetchInstr s = .faulted (raiseFault .invalidOpcode (s.fetched 1)) ∧
      BytesAt s [op] ∧ opcodeForm op = none) ∨
    (∃ d m, fetchInstr s = .faulted (raiseFault .invalidOpcode (s.fetched 3)) ∧
      BytesAt s [0x23, d, m] ∧ modePayload m = none) := by
  have h := decodeFrom_says (next := fetch) s
  unfold fetchInstr
  cases hd : decodeFrom fetch s with
  | ok i t =>
    rw [hd] at h
    obtain ⟨hb, rfl⟩ := takes_fetch h
    exact .inl ⟨i, rfl, hb⟩
  | truncated t =>
    rw [hd] at h
    obtain ⟨bs, ht, hn⟩ := h
    obtain ⟨-, rfl⟩ := takes_fetch ht
    refine .inr (.inl ⟨bs.length, rfl, ?_⟩)
    have := fetch_none hn
    rwa [OutOfMemory, State.fetched_ahead, State.fetched_memSize] at this
  | invalidOpcode t =>
    rw [hd] at h
    obtain ⟨op, ht, hn⟩ := h
    obtain ⟨hb, rfl⟩ := takes_fetch ht
    exact .inr (.inr (.inl ⟨op, rfl, hb, hn⟩))
  | invalidMode t =>
    rw [hd] at h
    obtain ⟨d, m, ht, hn⟩ := h
    obtain ⟨hb, rfl⟩ := takes_fetch ht
    exact .inr (.inr (.inr ⟨d, m, rfl, hb, hn⟩))

/-- Stepping over an instruction moves the PC, and no more, unless it faults (rule R90). -/
theorem skipOne_cases (s : State) :
    (∃ k, skipOne s = s.fetched k) ∨ (∃ c k, c ≠ .noFault ∧ skipOne s = raiseFault c (s.fetched k)) := by
  unfold skipOne
  rcases fetchInstr_cases s with ⟨i, h, -⟩ | ⟨k, h, -⟩ | ⟨op, h, -⟩ | ⟨d, m, h, -⟩ <;> rw [h]
  · exact .inl ⟨_, rfl⟩
  · exact .inr ⟨.bounds, k, by decide, rfl⟩
  · exact .inr ⟨.invalidOpcode, 1, by decide, rfl⟩
  · exact .inr ⟨.invalidOpcode, 3, by decide, rfl⟩

/-- Everything a STEP can do, before the meaning of an instruction is looked at. -/
theorem step_cases (s : State) :
    (s.stopped = true ∧ step s = .next s) ∨
    (s.stopped = false ∧ ∃ i, step s = exec i (s.fetched (encode i).length) ∧ BytesAt s (encode i)) ∨
    (s.stopped = false ∧ ∃ c k, c ≠ .noFault ∧ step s = .next (raiseFault c (s.fetched k))) := by
  unfold step
  cases hs : s.stopped with
  | true => exact .inl ⟨rfl, by simp⟩
  | false =>
    right
    simp only [Bool.false_eq_true, if_false, true_and]
    rcases fetchInstr_cases s with ⟨i, h, hb⟩ | ⟨k, h, -⟩ | ⟨op, h, -⟩ | ⟨d, m, h, -⟩ <;> rw [h]
    · exact .inl ⟨i, rfl, hb⟩
    · exact .inr ⟨.bounds, k, by decide, rfl⟩
    · exact .inr ⟨.invalidOpcode, 1, by decide, rfl⟩
    · exact .inr ⟨.invalidOpcode, 3, by decide, rfl⟩

end Sys2Proof.Machine
end

