-- ==== Sys2Proof/Laws/Memory.lean ====
section
/-! SUPPORT. The laws of memory: read after write, that every memory operation keeps the canonical form, and
that a canonical memory is known by what it reads. -/

namespace Sys2Proof.Machine

/-- The form of a memory with a first entry. -/
theorem Memory.wf_cons {k : Nat} {v : Byte} {m : Memory} :
    Memory.wf ((k, v) :: m) ↔
      (∀ c ∈ m, k < c.1) ∧ v ≠ Memory.unlisted ∧ Memory.wf m := by
  simp only [Memory.wf, List.pairwise_cons, List.mem_cons, forall_eq_or_imp]
  tauto

/-- An address below every listed one reads as unlisted. -/
theorem Memory.read_of_lt {m : Memory} {a : Nat} (h : ∀ c ∈ m, a < c.1) :
    m.read a = Memory.unlisted := by
  induction m with
  | nil => rfl
  | cons c m ih =>
    have h1 := h c (by simp)
    have h2 := ih fun d hd => h d (by simp [hd])
    simp only [Memory.read, h2]
    grind

/-- What a write lists: the address written, or what was listed. -/
theorem Memory.mem_write {m : Memory} {a : Nat} {b : Byte} {c : Host.Cell}
    (h : c ∈ m.write a b) : c = (a, b) ∨ c ∈ m := by
  induction m with
  | nil => simp only [Memory.write] at h; split at h <;> simp_all
  | cons d m ih =>
    obtain ⟨k, v⟩ := d
    simp only [Memory.write] at h
    split at h <;> [skip; split at h] <;> grind

/-- Read after write. -/
theorem Memory.read_write {m : Memory} (h : m.wf) (a : Nat) (b : Byte) (x : Nat) :
    (m.write a b).read x = if x = a then b else m.read x := by
  induction m with
  | nil => simp only [Memory.write]; split <;> grind [Memory.read]
  | cons d m ih =>
    obtain ⟨k, v⟩ := d
    obtain ⟨h1, h2, h3⟩ := Memory.wf_cons.mp h
    have ih := ih h3
    have hk : Memory.read m k = Memory.unlisted := Memory.read_of_lt h1
    have ha : a < k → Memory.read m a = Memory.unlisted := fun hlt =>
      Memory.read_of_lt fun c hc => Nat.lt_trans hlt (h1 c hc)
    simp only [Memory.write]
    split <;> [skip; split] <;> grind [Memory.read]

@[simp] theorem Memory.read_write_self {m : Memory} (h : m.wf) (a : Nat) (b : Byte) :
    (m.write a b).read a = b := by simp [Memory.read_write h]

theorem Memory.read_write_ne {m : Memory} (h : m.wf) {a x : Nat} (b : Byte) (hx : x ≠ a) :
    (m.write a b).read x = m.read x := by simp [Memory.read_write h, hx]

/-- A write keeps the canonical form. -/
theorem Memory.wf_write {m : Memory} (h : m.wf) (a : Nat) (b : Byte) : (m.write a b).wf := by
  induction m with
  | nil => simp only [Memory.write]; split <;> simp_all [Memory.wf]
  | cons d m ih =>
    obtain ⟨k, v⟩ := d
    obtain ⟨h1, h2, h3⟩ := Memory.wf_cons.mp h
    have ih := ih h3
    simp only [Memory.write]
    split
    · split
      · exact h
      · rename_i hlt hb
        refine Memory.wf_cons.mpr ⟨?_, hb, h⟩
        intro c hc
        rcases List.mem_cons.mp hc with rfl | hc
        · exact hlt
        · exact Nat.lt_trans hlt (h1 c hc)
    · split
      · split
        · exact h3
        · rename_i hk hb
          subst hk
          exact Memory.wf_cons.mpr ⟨h1, hb, h3⟩
      · refine Memory.wf_cons.mpr ⟨?_, h2, ih⟩
        intro c hc
        rcases Memory.mem_write hc with rfl | hc
        · simp only; omega
        · exact h1 c hc

/-- A write below a bound lists nothing at or above it. -/
theorem Memory.bounded_write {m : Memory} {n a : Nat} {b : Byte} (h : ∀ c ∈ m, c.1 < n)
    (ha : a < n) : ∀ c ∈ m.write a b, c.1 < n := by
  intro c hc
  rcases Memory.mem_write hc with rfl | hc
  · exact ha
  · exact h c hc

/-- Writing bytes one after another keeps the canonical form. -/
theorem Memory.wf_writeBytes {m : Memory} (h : m.wf) (a : Nat) (bs : List Byte) :
    (m.writeBytes a bs).wf := by
  induction bs generalizing m a with
  | nil => exact h
  | cons b bs ih => exact ih (Memory.wf_write h a b) (a + 1)

/-- Writing bytes below a bound lists nothing at or above it. -/
theorem Memory.bounded_writeBytes {m : Memory} {n a : Nat} {bs : List Byte}
    (h : ∀ c ∈ m, c.1 < n) (ha : a + bs.length ≤ n) : ∀ c ∈ m.writeBytes a bs, c.1 < n := by
  induction bs generalizing m a with
  | nil => exact h
  | cons b bs ih =>
    rw [List.length_cons] at ha
    exact ih (Memory.bounded_write h (by omega)) (by omega)

/-- Read after writing bytes one after another. -/
theorem Memory.read_writeBytes {m : Memory} (h : m.wf) (a : Nat) (bs : List Byte) (x : Nat) :
    (m.writeBytes a bs).read x =
      if a ≤ x then (bs[x - a]?).getD (m.read x) else m.read x := by
  induction bs generalizing m a with
  | nil => simp [Memory.writeBytes]
  | cons b bs ih =>
    rw [Memory.writeBytes, ih (Memory.wf_write h a b), Memory.read_write h]
    by_cases h1 : a + 1 ≤ x
    · have e : x - a = (x - (a + 1)) + 1 := by omega
      have h2 : a ≤ x := by omega
      have h3 : x ≠ a := by omega
      simp [h1, h2, h3, e]
    · by_cases h2 : x = a
      · subst h2; simp
      · have h3 : ¬ a ≤ x := by omega
        simp [h1, h2, h3]

/-- Canonical memories that read the same are the same list. -/
theorem Memory.ext {m n : Memory} (hm : m.wf) (hn : n.wf) (h : ∀ a, m.read a = n.read a) :
    m = n := by
  induction m generalizing n with
  | nil =>
    cases n with
    | nil => rfl
    | cons d n =>
      obtain ⟨k, v⟩ := d
      exact absurd (by simpa [Memory.read] using (h k).symm) (Memory.wf_cons.mp hn).2.1
  | cons c m ih =>
    obtain ⟨k, v⟩ := c
    obtain ⟨m1, m2, m3⟩ := Memory.wf_cons.mp hm
    cases n with
    | nil => exact absurd (by simpa [Memory.read] using h k) m2
    | cons d n =>
      obtain ⟨j, w⟩ := d
      obtain ⟨n1, n2, n3⟩ := Memory.wf_cons.mp hn
      have hmk : ∀ a, a ≤ k → Memory.read m a = Memory.unlisted := fun a ha =>
        Memory.read_of_lt fun c hc => Nat.lt_of_le_of_lt ha (m1 c hc)
      have hnj : ∀ a, a ≤ j → Memory.read n a = Memory.unlisted := fun a ha =>
        Memory.read_of_lt fun c hc => Nat.lt_of_le_of_lt ha (n1 c hc)
      have hk := h k
      have hj := h j
      simp only [Memory.read, ↓reduceIte] at hk hj
      have e : k = j := by
        rcases Nat.lt_trichotomy k j with hlt | he | hlt
        · have := hnj k (by omega); grind
        · exact he
        · have := hmk j (by omega); grind
      subst e
      simp only [↓reduceIte] at hk
      subst hk
      congr 1
      refine ih m3 n3 fun a => ?_
      by_cases ha : k = a
      · subst ha; rw [hmk k (Nat.le_refl k), hnj k (Nat.le_refl k)]
      · simpa [Memory.read, ha] using h a

/-! ## The wraparound unit and the data accesses -/

theorem Config.memSize_pos (c : Config) : 0 < c.memSize := Nat.two_pow_pos _

theorem State.wrap_lt (s : State) (a : Word) : s.wrap a < s.memSize := by
  have h : s.wrap a ≤ s.memSize - 1 := Nat.and_le_right
  have := Config.memSize_pos s.cfg
  simp only [State.memSize] at *
  omega

/-- A store keeps the canonical form of memory. -/
theorem State.memoryOk_memWrite {s : State} (h : s.memoryOk) (a : Word) (b : Byte) :
    (s.memWrite a b).memoryOk :=
  ⟨Memory.wf_write h.1 _ _, Memory.bounded_write h.2 (s.wrap_lt a)⟩

/-- What a store does to every byte of memory. -/
theorem State.read_memWrite {s : State} (h : s.memoryOk) (a : Word) (b : Byte) (x : Nat) :
    (s.memWrite a b).mem.read x = if x = s.wrap a then b else s.mem.read x :=
  Memory.read_write h.1 _ _ _

/-- Reset memory is in canonical form. -/
theorem reset_mem_wf : State.reset.mem.wf := by decide

end Sys2Proof.Machine
end

