-- ==== Sys2Proof/Laws/Exec.lean ====
section
/-! SUPPORT. What each shared operation can do, and what a meaning can do to the state: the inversion
lemmas the frames and invariants rest on. -/

namespace Sys2Proof.Machine

@[simp] theorem threeReg_eq (f : Word → Word → Word) (d a b : Byte) (s : State) :
    threeReg f d a b s = .next (s.setX d (f (s.x a) (s.x b))) := rfl

/-- A division writes its destination, or faults on a zero divisor. -/
theorem divisionReg_cases (f : Word → Word → Word) (d a b : Byte) (s : State) :
    (s.x b = 0 ∧ divisionReg f d a b s = .next (raiseFault .division s)) ∨
    (s.x b ≠ 0 ∧ divisionReg f d a b s = .next (s.setX d (f (s.x a) (s.x b)))) := by
  unfold divisionReg
  split
  · exact .inl ⟨by assumption, rfl⟩
  · exact .inr ⟨by assumption, rfl⟩

/-- A digit mode writes its destination, or faults on a payload that is no digit. -/
theorem loadDigit_cases (d : Byte) (digit : Option Word) (s : State) :
    (∃ v, digit = some v ∧ loadDigit d digit s = .next (s.setX d v)) ∨
    (digit = none ∧ loadDigit d digit s = .next (raiseFault .invalidOpcode s)) := by
  cases digit with
  | some v => exact .inl ⟨v, rfl, rfl⟩
  | none => exact .inr ⟨rfl, rfl⟩

/-- The four things a hook call can do (rules R92, R144, R147, R214). -/
theorem callHook_cases (kind : HookKind) (q : Byte) (s : State)
    (k : State → Host.Outcome State Fault Refusal) :
    (∃ bank, s.hookAnswer (s.callsAfter kind q) = .returns bank ∧
      callHook kind q s k = k ((s.afterCall kind q).setPorts bank)) ∨
    (s.hookAnswer (s.callsAfter kind q) = .terminates ∧
      callHook kind q s k = .next (s.afterCall kind q).terminate) ∨
    (s.hookAnswer (s.callsAfter kind q) = .neverReturns ∧
      callHook kind q s k = .fault .hookNeverReturns) ∨
    (s.hookAnswer (s.callsAfter kind q) = .breaksDuty ∧
      callHook kind q s k = .refused .hookBreaksDuty) := by
  unfold callHook
  cases h : s.hookAnswer (s.callsAfter kind q) with
  | returns bank => exact .inl ⟨bank, rfl, rfl⟩
  | terminates => exact .inr (.inl ⟨rfl, rfl⟩)
  | neverReturns => exact .inr (.inr (.inl ⟨rfl, rfl⟩))
  | breaksDuty => exact .inr (.inr (.inr ⟨rfl, rfl⟩))

/-- What the scan finds is the first marker at or after its start (rule R168). -/
theorem scanFrom_some {m : Memory} {size : Nat} {l : Byte} {fuel c k : Nat}
    (h : scanFrom m size l fuel c = some k) :
    c ≤ k ∧ k + 1 < size ∧ m.read k = closeByte ∧ m.read (k + 1) = l ∧
      ∀ j, c ≤ j → j < k → ¬ (m.read j = closeByte ∧ m.read (j + 1) = l) := by
  induction fuel generalizing c with
  | zero => simp [scanFrom] at h
  | succ fuel ih =>
    unfold scanFrom at h
    split at h
    · split at h
      · cases h; exact ⟨Nat.le_refl _, by assumption, by tauto, by tauto, by omega⟩
      · obtain ⟨h1, h2, h3, h4, h5⟩ := ih h
        refine ⟨by omega, h2, h3, h4, fun j hj hk => ?_⟩
        by_cases e : j = c
        · subst e; assumption
        · exact h5 j (by omega) hk
    · cases h

/-- Where the scan finds nothing there is no marker (rule R168). -/
theorem scanFrom_none {m : Memory} {size : Nat} {l : Byte} {fuel c : Nat}
    (h : scanFrom m size l fuel c = none) (hf : size ≤ c + fuel) (j : Nat) (hj : c ≤ j)
    (hs : j + 1 < size) : ¬ (m.read j = closeByte ∧ m.read (j + 1) = l) := by
  induction fuel generalizing c with
  | zero => omega
  | succ fuel ih =>
    unfold scanFrom at h
    split at h
    · split at h
      · cases h
      · by_cases e : j = c
        · subst e; assumption
        · exact ih h (by omega) (by omega)
    · omega

/-- Nothing but registers differs. -/
def RegsOnly (s t : State) : Prop := t = { s with regs := t.regs }

theorem RegsOnly.rfl (s : State) : RegsOnly s s := by simp [RegsOnly]

theorem RegsOnly.setReg {s t : State} (h : RegsOnly s t) (r : Fin 128) (v : Word) :
    RegsOnly s (t.setReg r v) := by
  unfold RegsOnly at h ⊢
  rw [h]
  simp [State.setReg]

/-- What a meaning can do when it answers a next state. -/
inductive Effect (s : State) : Instr → State → Prop
  /-- Registers are written, or nothing at all. -/
  | regs {i : Instr} {u : State} (h : RegsOnly s u) : Effect s i u
  /-- A fault of the CORE; only the PC, or BLK's label register, may have been written before it. -/
  | fault {i : Instr} {c : StatusCode} {u : State} (hc : c ≠ .noFault) (h : RegsOnly s u)
      (hr : ∀ r, r ≠ pcReg → (∀ l, i = .blk l → r ≠ reg l) → u.getReg r = s.getReg r) :
      Effect s i (raiseFault c u)
  /-- The clean halt. -/
  | halt : Effect s .halt s.halt
  /-- A store. -/
  | store (a v : Byte) : Effect s (.st a v) (s.memWrite (s.x a) (lowByte (s.x v)))
  /-- A call that finds room on the stack. -/
  | call (t : Byte) (h : s.stackFull = false) : Effect s (.call t) ((s.push s.pc).setPc (s.x t))
  /-- A return from a stack that is not empty. -/
  | ret (h : s.depth ≠ 0) : Effect s .ret (s.pop.setPc (s.stackEntry (s.depth - 1)))
  /-- A port access whose hook, if there is one, returned. -/
  | port {i : Instr} {u : State} (hi : (∃ d p, i = .inp d p) ∨ (∃ p v, i = .out p v))
      (h : u = { s with regs := u.regs, ports := u.ports, hookCalls := u.hookCalls
                        hostAnswers := u.hostAnswers }) : Effect s i u
  /-- A port access whose hook ended the run. -/
  | terminated {i : Instr} {u : State} (hi : (∃ d p, i = .inp d p) ∨ (∃ p v, i = .out p v))
      (h : u = { s with ports := u.ports, hookCalls := u.hookCalls
                        hostAnswers := u.hostAnswers, hostTerminated := true }) : Effect s i u

theorem Effect.setReg {s : State} (i : Instr) (r : Fin 128) (v : Word) :
    Effect s i (s.setReg r v) := .regs ((RegsOnly.rfl s).setReg r v)

/-- A skip moves the PC, or faults. -/
theorem skipOne_effect (s : State) (i : Instr) : Effect s i (skipOne s) := by
  rcases skipOne_cases s with ⟨k, h⟩ | ⟨c, k, hc, h⟩ <;> rw [h]
  · exact Effect.setReg i _ _
  · exact .fault hc ((RegsOnly.rfl s).setReg _ _) fun r hr _ => State.getReg_setReg_ne _ _ _ hr

/-- Every instruction does one of these, when it answers a next state. -/
theorem exec_effect {i : Instr} {s t : State} (h : exec i s = .next t) : Effect s i t := by
  cases i
  case halt => cases h; exact .halt
  case nopHt => cases h; exact .regs (RegsOnly.rfl s)
  case nopLf => cases h; exact .regs (RegsOnly.rfl s)
  case nopVt => cases h; exact .regs (RegsOnly.rfl s)
  case nopFf => cases h; exact .regs (RegsOnly.rfl s)
  case nopCr => cases h; exact .regs (RegsOnly.rfl s)
  case nopSp => cases h; exact .regs (RegsOnly.rfl s)
  case endMark l => cases h; exact .regs (RegsOnly.rfl s)
  case add | sub | mul | and | or | xor | not | shl | shr | liR | liW | liM | liI | ld | jmp | label =>
    cases h; exact Effect.setReg _ _ _
  case div d a b =>
    rcases divisionReg_cases (fun x y => x.udiv y) d a b s with ⟨-, e⟩ | ⟨-, e⟩ <;>
      cases e.symm.trans h
    · exact .fault (by decide) (RegsOnly.rfl s) fun _ _ _ => rfl
    · exact Effect.setReg _ _ _
  case mod d a b =>
    rcases divisionReg_cases (fun x y => x.umod y) d a b s with ⟨-, e⟩ | ⟨-, e⟩ <;>
      cases e.symm.trans h
    · exact .fault (by decide) (RegsOnly.rfl s) fun _ _ _ => rfl
    · exact Effect.setReg _ _ _
  case liD d v =>
    rcases loadDigit_cases d (decimalDigit v) s with ⟨w, -, e⟩ | ⟨-, e⟩ <;> cases e.symm.trans h
    · exact Effect.setReg _ _ _
    · exact .fault (by decide) (RegsOnly.rfl s) fun _ _ _ => rfl
  case liX d v =>
    rcases loadDigit_cases d (hexDigit v) s with ⟨w, -, e⟩ | ⟨-, e⟩ <;> cases e.symm.trans h
    · exact Effect.setReg _ _ _
    · exact .fault (by decide) (RegsOnly.rfl s) fun _ _ _ => rfl
  case st a v => cases h; exact .store a v
  case br c a b t =>
    simp only [exec, execBr] at h
    split at h <;> cases h
    · exact .fault (by decide) (RegsOnly.rfl s) fun _ _ _ => rfl
    · exact Effect.setReg _ _ _
    · exact .regs (RegsOnly.rfl s)
  case skip c a b =>
    simp only [exec, execSkip] at h
    split at h <;> cases h
    · exact .fault (by decide) (RegsOnly.rfl s) fun _ _ _ => rfl
    · exact .regs (RegsOnly.rfl s)
    · exact skipOne_effect s _
  case call t =>
    simp only [exec, execCall] at h
    split at h <;> cases h
    · exact .fault (by decide) (RegsOnly.rfl s) fun _ _ _ => rfl
    · exact .call t (Bool.eq_false_iff.mpr (by assumption))
  case ret =>
    simp only [exec, execRet] at h
    split at h <;> cases h
    · exact .fault (by decide) (RegsOnly.rfl s) fun _ _ _ => rfl
    · exact .ret (by assumption)
  case blk l =>
    simp only [exec, execBlk] at h
    split at h <;> cases h
    · exact .fault (by decide) ((RegsOnly.rfl s).setReg _ _) fun r _ hl =>
        State.getReg_setReg_ne _ _ _ (hl l rfl)
    · exact .regs (((RegsOnly.rfl s).setReg _ _).setReg _ _)
  case inp d p =>
    have hi : (∃ d' p', Instr.inp d p = .inp d' p') ∨ (∃ p' v', Instr.inp d p = .out p' v') :=
      .inl ⟨d, p, rfl⟩
    simp only [exec, execIn] at h
    split at h
    · rcases callHook_cases .sense (s.portIndex p) s (readPort d (s.portIndex p)) with
        ⟨bank, -, e⟩ | ⟨-, e⟩ | ⟨-, e⟩ | ⟨-, e⟩ <;> cases e.symm.trans h
      · exact .port hi rfl
      · exact .terminated hi rfl
    · cases h; exact Effect.setReg _ _ _
  case out p v =>
    have hi : (∃ d' p', Instr.out p v = .inp d' p') ∨ (∃ p' v', Instr.out p v = .out p' v') :=
      .inr ⟨p, v, rfl⟩
    simp only [exec, execOut] at h
    split at h
    · rcases callHook_cases .emit (s.portIndex p) (s.setPort (s.portIndex p) (s.x v)) .next with
        ⟨bank, -, e⟩ | ⟨-, e⟩ | ⟨-, e⟩ | ⟨-, e⟩ <;> cases e.symm.trans h
      · exact .port hi rfl
      · exact .terminated hi rfl
    · cases h; exact .port hi rfl

end Sys2Proof.Machine
end

