-- ==== Sys2Proof/Laws/PerInstr.lean ====
section
/-! SUPPORT. Statements made for every instruction, one lemma a constructor.

`Length`: the encoder lays out as many bytes as the length columns of rules R61 and R64 say, at least
one and at most seven. -/

namespace Sys2Proof.Laws

/-- The encoding has the length the spec's tables give (rules R60, R61, R64). -/
def Length.Statement (i : Instr) : Prop :=
  (encode i).length = i.len ∧ 1 ≤ i.len ∧ i.len ≤ maxInstrBytes

theorem Length.halt : Length.Statement .halt :=
  ⟨rfl, Nat.le_of_ble_eq_true rfl, Nat.le_of_ble_eq_true rfl⟩
theorem Length.nopHt : Length.Statement .nopHt :=
  ⟨rfl, Nat.le_of_ble_eq_true rfl, Nat.le_of_ble_eq_true rfl⟩
theorem Length.nopLf : Length.Statement .nopLf :=
  ⟨rfl, Nat.le_of_ble_eq_true rfl, Nat.le_of_ble_eq_true rfl⟩
theorem Length.nopVt : Length.Statement .nopVt :=
  ⟨rfl, Nat.le_of_ble_eq_true rfl, Nat.le_of_ble_eq_true rfl⟩
theorem Length.nopFf : Length.Statement .nopFf :=
  ⟨rfl, Nat.le_of_ble_eq_true rfl, Nat.le_of_ble_eq_true rfl⟩
theorem Length.nopCr : Length.Statement .nopCr :=
  ⟨rfl, Nat.le_of_ble_eq_true rfl, Nat.le_of_ble_eq_true rfl⟩
theorem Length.nopSp : Length.Statement .nopSp :=
  ⟨rfl, Nat.le_of_ble_eq_true rfl, Nat.le_of_ble_eq_true rfl⟩
theorem Length.br (c a b t : Byte) : Length.Statement (.br c a b t) :=
  ⟨rfl, Nat.le_of_ble_eq_true rfl, Nat.le_of_ble_eq_true rfl⟩
theorem Length.liD (d v : Byte) : Length.Statement (.liD d v) :=
  ⟨rfl, Nat.le_of_ble_eq_true rfl, Nat.le_of_ble_eq_true rfl⟩
theorem Length.liI (d s : Byte) : Length.Statement (.liI d s) :=
  ⟨rfl, Nat.le_of_ble_eq_true rfl, Nat.le_of_ble_eq_true rfl⟩
theorem Length.liM (d s : Byte) : Length.Statement (.liM d s) :=
  ⟨rfl, Nat.le_of_ble_eq_true rfl, Nat.le_of_ble_eq_true rfl⟩
theorem Length.liR (d v : Byte) : Length.Statement (.liR d v) :=
  ⟨rfl, Nat.le_of_ble_eq_true rfl, Nat.le_of_ble_eq_true rfl⟩
theorem Length.liW (d v0 v1 v2 v3 : Byte) : Length.Statement (.liW d v0 v1 v2 v3) :=
  ⟨rfl, Nat.le_of_ble_eq_true rfl, Nat.le_of_ble_eq_true rfl⟩
theorem Length.liX (d v : Byte) : Length.Statement (.liX d v) :=
  ⟨rfl, Nat.le_of_ble_eq_true rfl, Nat.le_of_ble_eq_true rfl⟩
theorem Length.mod (d a b : Byte) : Length.Statement (.mod d a b) :=
  ⟨rfl, Nat.le_of_ble_eq_true rfl, Nat.le_of_ble_eq_true rfl⟩
theorem Length.and (d a b : Byte) : Length.Statement (.and d a b) :=
  ⟨rfl, Nat.le_of_ble_eq_true rfl, Nat.le_of_ble_eq_true rfl⟩
theorem Length.call (t : Byte) : Length.Statement (.call t) :=
  ⟨rfl, Nat.le_of_ble_eq_true rfl, Nat.le_of_ble_eq_true rfl⟩
theorem Length.ret : Length.Statement .ret :=
  ⟨rfl, Nat.le_of_ble_eq_true rfl, Nat.le_of_ble_eq_true rfl⟩
theorem Length.mul (d a b : Byte) : Length.Statement (.mul d a b) :=
  ⟨rfl, Nat.le_of_ble_eq_true rfl, Nat.le_of_ble_eq_true rfl⟩
theorem Length.add (d a b : Byte) : Length.Statement (.add d a b) :=
  ⟨rfl, Nat.le_of_ble_eq_true rfl, Nat.le_of_ble_eq_true rfl⟩
theorem Length.inp (d p : Byte) : Length.Statement (.inp d p) :=
  ⟨rfl, Nat.le_of_ble_eq_true rfl, Nat.le_of_ble_eq_true rfl⟩
theorem Length.sub (d a b : Byte) : Length.Statement (.sub d a b) :=
  ⟨rfl, Nat.le_of_ble_eq_true rfl, Nat.le_of_ble_eq_true rfl⟩
theorem Length.div (d a b : Byte) : Length.Statement (.div d a b) :=
  ⟨rfl, Nat.le_of_ble_eq_true rfl, Nat.le_of_ble_eq_true rfl⟩
theorem Length.label (d : Byte) : Length.Statement (.label d) :=
  ⟨rfl, Nat.le_of_ble_eq_true rfl, Nat.le_of_ble_eq_true rfl⟩
theorem Length.out (p s : Byte) : Length.Statement (.out p s) :=
  ⟨rfl, Nat.le_of_ble_eq_true rfl, Nat.le_of_ble_eq_true rfl⟩
theorem Length.shl (d a b : Byte) : Length.Statement (.shl d a b) :=
  ⟨rfl, Nat.le_of_ble_eq_true rfl, Nat.le_of_ble_eq_true rfl⟩
theorem Length.shr (d a b : Byte) : Length.Statement (.shr d a b) :=
  ⟨rfl, Nat.le_of_ble_eq_true rfl, Nat.le_of_ble_eq_true rfl⟩
theorem Length.skip (c a b : Byte) : Length.Statement (.skip c a b) :=
  ⟨rfl, Nat.le_of_ble_eq_true rfl, Nat.le_of_ble_eq_true rfl⟩
theorem Length.jmp (t : Byte) : Length.Statement (.jmp t) :=
  ⟨rfl, Nat.le_of_ble_eq_true rfl, Nat.le_of_ble_eq_true rfl⟩
theorem Length.ld (d a : Byte) : Length.Statement (.ld d a) :=
  ⟨rfl, Nat.le_of_ble_eq_true rfl, Nat.le_of_ble_eq_true rfl⟩
theorem Length.st (a s : Byte) : Length.Statement (.st a s) :=
  ⟨rfl, Nat.le_of_ble_eq_true rfl, Nat.le_of_ble_eq_true rfl⟩
theorem Length.xor (d a b : Byte) : Length.Statement (.xor d a b) :=
  ⟨rfl, Nat.le_of_ble_eq_true rfl, Nat.le_of_ble_eq_true rfl⟩
theorem Length.blk (l : Byte) : Length.Statement (.blk l) :=
  ⟨rfl, Nat.le_of_ble_eq_true rfl, Nat.le_of_ble_eq_true rfl⟩
theorem Length.or (d a b : Byte) : Length.Statement (.or d a b) :=
  ⟨rfl, Nat.le_of_ble_eq_true rfl, Nat.le_of_ble_eq_true rfl⟩
theorem Length.endMark (l : Byte) : Length.Statement (.endMark l) :=
  ⟨rfl, Nat.le_of_ble_eq_true rfl, Nat.le_of_ble_eq_true rfl⟩
theorem Length.not (d a : Byte) : Length.Statement (.not d a) :=
  ⟨rfl, Nat.le_of_ble_eq_true rfl, Nat.le_of_ble_eq_true rfl⟩

end Sys2Proof.Laws
end

