-- ==== Sys2Proof/Tests/Slice0.lean ====
section
/-! SUPPORT. Tests. The encodings and the expected results are those of spec/95_test_vectors.md (the vector is named
after each test) or worked out from the rule named; and one witness, or one per clause, for each
statement that has hypotheses. -/

namespace Sys2Proof.Tests
open Sys2Proof Sys2Proof.Machine

/-! ## Helpers -/

/-- The start state of a vector: the bytes from `pc` on in `2^log2` bytes of zero memory, and some
registers. Room for four calls, no hooks. -/
def placed (log2 : Fin 33) (pc : Nat) (bytes : List Byte) (regs : List (Byte × Word)) : State :=
  let cfg : Config := { Config.default with memLog2 := log2, stackDepth := 4 }
  let s := State.initial cfg (Memory.writeBytes [] pc bytes)
  regs.foldl (fun s p => s.setX p.1 p.2) (s.setPc (BitVec.ofNat 32 pc))

/-- The same with both hooks attached, and the host's next answer. -/
def hooked (bytes : List Byte) (regs : List (Byte × Word)) (answer : HookAnswer) : State :=
  let s := placed 8 0 bytes regs
  { s with cfg := { s.cfg with sensePresent := true, emitPresent := true }, hostAnswers := [answer] }

/-- The same with some call-stack entries live. -/
def called (entries : List Word) (bytes : List Byte) (regs : List (Byte × Word)) : State :=
  entries.foldl State.push (placed 8 0 bytes regs)

/-- A next state for which `p` holds. -/
def ends (o : Host.Outcome State Fault Refusal) (p : State → Bool) : Bool :=
  match o with
  | .next t => p t
  | .fault _ => false
  | .refused _ => false

/-- Halted with this code and PC. -/
def faulted (c : StatusCode) (pc : Word) (t : State) : Bool := t.halted && t.code == c && t.pc == pc

/-- Running, with this PC. -/
def running (pc : Word) (t : State) : Bool := !t.halted && t.code == .noFault && t.pc == pc

theorem next_of_ends {o : Host.Outcome State Fault Refusal} {p : State → Bool}
    (h : ends o p = true) : ∃ t, o = .next t ∧ p t = true := by
  cases o with
  | next t => exact ⟨t, rfl, h⟩
  | fault f => cases h
  | refused r => cases h

/-- `BytesAt`, as a check. -/
def standsAt (s : State) : List Byte → Bool
  | [] => true
  | b :: bs =>
    decide (s.ahead 0 < s.memSize ∧ s.mem.read (s.ahead 0) = b) && standsAt (s.fetched 1) bs

theorem bytesAt_of_standsAt {s : State} {bs : List Byte} (h : standsAt s bs = true) :
    BytesAt s bs := by
  induction bs generalizing s with
  | nil => intro k b hk; simp at hk
  | cons b bs ih =>
    simp only [standsAt, Bool.and_eq_true, decide_eq_true_eq] at h
    exact bytesAt_cons.mpr ⟨h.1, ih h.2⟩

/-! ## Well-formedness: each check refuses an ill-formed term -/

theorem test_wellFormed_br_selector : ¬ WellFormed (.br 0x5A 0x61 0x62 0x74) := by decide
theorem test_wellFormed_skip_selector : ¬ WellFormed (.skip 0x5A 0x61 0x62) := by decide
theorem test_wellFormed_liD_digit :
    ¬ WellFormed (.liD 0x62 0x61) ∧ ¬ WellFormed (.liD 0x62 0x2F) ∧ ¬ WellFormed (.liD 0x62 0x3A) := by
  decide
theorem test_wellFormed_liX_digit :
    ¬ WellFormed (.liX 0x63 0x67) ∧ ¬ WellFormed (.liX 0x63 0x47) ∧ ¬ WellFormed (.liX 0x63 0x60) ∧
      ¬ WellFormed (.liX 0x63 0x40) := by decide
theorem test_wellFormed_accepts :
    WellFormed (.br 0x3C 0xFF 0 1) ∧ WellFormed (.skip 0x3E 0 0) ∧ WellFormed (.liD 0 0x39) ∧
      WellFormed (.liX 0 0x66) ∧ WellFormed (.liX 0 0x46) := by decide

/-! ## Decoding: the bytes of every constructor, written out from rules R60 to R67 -/

theorem test_decode_halt : decode [0x00] = .ok .halt [] := by decide
theorem test_decode_nop :
    decode [0x09] = .ok .nopHt [] ∧ decode [0x0A] = .ok .nopLf [] ∧ decode [0x0B] = .ok .nopVt [] ∧
      decode [0x0C] = .ok .nopFf [] ∧ decode [0x0D] = .ok .nopCr [] ∧
      decode [0x20, 0x20] = .ok .nopSp [0x20] := by decide
theorem test_decode_br : decode [0x21, 0x21, 0x6E, 0x7A, 0x4C] = .ok (.br 0x21 0x6E 0x7A 0x4C) [] := by
  decide
theorem test_decode_liD : decode [0x23, 0x62, 0x64, 0x35] = .ok (.liD 0x62 0x35) [] := by decide
theorem test_decode_liI : decode [0x23, 0x62, 0x69, 0x70] = .ok (.liI 0x62 0x70) [] := by decide
theorem test_decode_liM : decode [0x23, 0x62, 0x6D, 0x61] = .ok (.liM 0x62 0x61) [] := by decide
theorem test_decode_liR : decode [0x23, 0x61, 0x72, 0x0A] = .ok (.liR 0x61 0x0A) [] := by decide
theorem test_decode_liW :
    decode [0x23, 0x7A, 0x77, 0x78, 0x56, 0x34, 0x12, 0x00] =
      .ok (.liW 0x7A 0x78 0x56 0x34 0x12) [0x00] := by decide
theorem test_decode_liX : decode [0x23, 0x63, 0x78, 0x46] = .ok (.liX 0x63 0x46) [] := by decide
theorem test_decode_mod : decode [0x25, 0x63, 0x61, 0x62] = .ok (.mod 0x63 0x61 0x62) [] := by decide
theorem test_decode_and : decode [0x26, 0x63, 0x61, 0x62] = .ok (.and 0x63 0x61 0x62) [] := by decide
theorem test_decode_call : decode [0x28, 0x66] = .ok (.call 0x66) [] := by decide
theorem test_decode_ret : decode [0x29] = .ok .ret [] := by decide
theorem test_decode_mul : decode [0x2A, 0x63, 0x61, 0x62] = .ok (.mul 0x63 0x61 0x62) [] := by decide
theorem test_decode_add : decode [0x2B, 0x63, 0x61, 0x62] = .ok (.add 0x63 0x61 0x62) [] := by decide
theorem test_decode_in : decode [0x2C, 0x63, 0x70] = .ok (.inp 0x63 0x70) [] := by decide
theorem test_decode_sub : decode [0x2D, 0x63, 0x61, 0x62] = .ok (.sub 0x63 0x61 0x62) [] := by decide
theorem test_decode_div : decode [0x2F, 0x64, 0x61, 0x62] = .ok (.div 0x64 0x61 0x62) [] := by decide
theorem test_decode_label : decode [0x3A, 0x4C] = .ok (.label 0x4C) [] := by decide
theorem test_decode_out : decode [0x3B, 0x70, 0x78] = .ok (.out 0x70 0x78) [] := by decide
theorem test_decode_shl : decode [0x3C, 0x63, 0x61, 0x62] = .ok (.shl 0x63 0x61 0x62) [] := by decide
theorem test_decode_shr : decode [0x3E, 0x63, 0x61, 0x62] = .ok (.shr 0x63 0x61 0x62) [] := by decide
theorem test_decode_skip : decode [0x3F, 0x3D, 0x61, 0x62] = .ok (.skip 0x3D 0x61 0x62) [] := by decide
theorem test_decode_jmp : decode [0x40, 0x7A] = .ok (.jmp 0x7A) [] := by decide
theorem test_decode_ld : decode [0x5B, 0x63, 0x61] = .ok (.ld 0x63 0x61) [] := by decide
theorem test_decode_st : decode [0x5D, 0x61, 0x76] = .ok (.st 0x61 0x76) [] := by decide
theorem test_decode_xor : decode [0x5E, 0x63, 0x61, 0x62] = .ok (.xor 0x63 0x61 0x62) [] := by decide
theorem test_decode_blk : decode [0x7B, 0x4C] = .ok (.blk 0x4C) [] := by decide
theorem test_decode_or : decode [0x7C, 0x63, 0x61, 0x62] = .ok (.or 0x63 0x61 0x62) [] := by decide
theorem test_decode_end : decode [0x7D, 0x4C] = .ok (.endMark 0x4C) [] := by decide
theorem test_decode_not : decode [0x7E, 0x63, 0x61] = .ok (.not 0x63 0x61) [] := by decide
theorem test_decode_refusals :
    decode [0x41] = .invalidOpcode [] ∧ decode [0x2E] = .invalidOpcode [] ∧
      decode [0x23, 0x61, 0x71, 0x35] = .invalidMode [0x35] ∧
      decode [0x2B, 0x63, 0x61] = .truncated [] ∧ decode [] = .truncated [] := by decide

/-- The table's `fixed` and `fields` rows number the opcode byte on top: ADD d, a, b at 31:24 down. -/
theorem test_table_words :
    decodeTableWord 32 0x2B636162 = some (.add 0x63 0x61 0x62) ∧
      decodeTableWord 8 0x29 = some .ret ∧ decodeTableWord 16 0x2866 = some (.call 0x66) ∧
      decodeTableWord 24 0x5B6361 = some (.ld 0x63 0x61) ∧
      decodeTableWord 40 0x21216E7A4C = some (.br 0x21 0x6E 0x7A 0x4C) ∧
      decodeTableWord 56 0x237A7778563412 = some (.liW 0x7A 0x78 0x56 0x34 0x12) ∧
      decodeTableWord 8 0x41 = none := by decide

/-- A table word placed after reset is run by the next step: `LI a, r, 0x0A`. -/
theorem test_withFetchWord :
    ends (step (State.reset.withFetchWord 32 0x2361720A)) (fun t => t.x 0x61 == 10 && running 4 t) := by
  decide

/-! ## Arithmetic and bitwise -/

theorem test_add_wraps :  -- A1
    ends (step (placed 8 0 [0x2B, 0x63, 0x61, 0x62] [(0x61, 0xFFFFFFFF), (0x62, 2)]))
      (fun t => t.x 0x63 == 1 && running 4 t) := by decide
theorem test_add_writes_pc :  -- A2
    ends (step (placed 8 0 [0x2B, 0x2E, 0x61, 0x62] [(0x61, 0x10), (0x62, 0x20)])) (running 0x30) := by
  decide
theorem test_sub_wraps :  -- A5
    ends (step (placed 8 0 [0x2D, 0x63, 0x61, 0x62] [(0x61, 3), (0x62, 5)]))
      (fun t => t.x 0x63 == 0xFFFFFFFE) := by decide
theorem test_mul_low_word :  -- A8
    ends (step (placed 8 0 [0x2A, 0x63, 0x61, 0x62] [(0x61, 0x10000), (0x62, 0x10001)]))
      (fun t => t.x 0x63 == 0x10000) := by decide
theorem test_div_unsigned :  -- A12
    ends (step (placed 8 0 [0x2F, 0x63, 0x61, 0x62] [(0x61, 0xFFFFFFFF), (0x62, 1)]))
      (fun t => t.x 0x63 == 0xFFFFFFFF) := by decide
theorem test_div_by_zero :  -- A10
    ends (step (placed 8 0 [0x2F, 0x63, 0x61, 0x62] [(0x61, 7), (0x63, 0x55)]))
      (fun t => t.x 0x63 == 0x55 && faulted .division 4 t) := by decide
theorem test_mod :  -- A14
    ends (step (placed 8 0 [0x25, 0x63, 0x61, 0x62] [(0x61, 17), (0x62, 5)]))
      (fun t => t.x 0x63 == 2) := by decide
theorem test_mod_by_zero :  -- A16
    ends (step (placed 8 0 [0x25, 0x63, 0x61, 0x62] [(0x61, 9), (0x63, 0x55)]))
      (fun t => t.x 0x63 == 0x55 && faulted .division 4 t) := by decide
theorem test_and :  -- B1
    ends (step (placed 8 0 [0x26, 0x63, 0x61, 0x62] [(0x61, 0xF0F0F0F0), (0x62, 0xFF00FF00)]))
      (fun t => t.x 0x63 == 0xF000F000) := by decide
theorem test_or :  -- B2
    ends (step (placed 8 0 [0x7C, 0x63, 0x61, 0x62] [(0x61, 0xF0F0F0F0), (0x62, 0xFF00FF00)]))
      (fun t => t.x 0x63 == 0xFFF0FFF0) := by decide
theorem test_xor :  -- B3
    ends (step (placed 8 0 [0x5E, 0x63, 0x61, 0x62] [(0x61, 0xF0F0F0F0), (0x62, 0xFF00FF00)]))
      (fun t => t.x 0x63 == 0x0FF00FF0) := by decide
theorem test_not :  -- B5
    ends (step (placed 8 0 [0x7E, 0x63, 0x61] [(0x61, 0x0000FFFF)]))
      (fun t => t.x 0x63 == 0xFFFF0000 && running 3 t) := by decide
theorem test_shl_amount :  -- B8, B11
    ends (step (placed 8 0 [0x3C, 0x63, 0x61, 0x62] [(0x61, 0x80000001), (0x62, 1)]))
        (fun t => t.x 0x63 == 2) ∧
      ends (step (placed 8 0 [0x3C, 0x63, 0x61, 0x62] [(0x61, 0x80000001), (0x62, 33)]))
        (fun t => t.x 0x63 == 0) := by decide
theorem test_shr_logical :  -- B9, B12
    ends (step (placed 8 0 [0x3E, 0x63, 0x61, 0x62] [(0x61, 0x80000001), (0x62, 31)]))
        (fun t => t.x 0x63 == 1) ∧
      ends (step (placed 8 0 [0x3E, 0x63, 0x61, 0x62] [(0x61, 0x80000001), (0x62, 0xFFFFFFFF)]))
        (fun t => t.x 0x63 == 0) := by decide
theorem test_register_name_wraps :  -- A17
    ends (step (placed 8 0 [0x2B, 0xE3, 0x61, 0x62] [(0x61, 1), (0x62, 2)]))
      (fun t => t.x 0x63 == 3) := by decide
theorem test_fetch_fault_comes_first :  -- A20
    ends (step (placed 2 1 [0x2F, 0x63, 0x61] [(0x63, 0x55)]))
      (fun t => t.x 0x63 == 0x55 && faulted .bounds 4 t) := by decide

/-! ## Immediate load -/

theorem test_liR_no_sign_extension :  -- I2
    ends (step (placed 8 0 [0x23, 0x61, 0x72, 0xFF] [])) (fun t => t.x 0x61 == 0xFF && running 4 t) := by
  decide
theorem test_liD_digit :  -- I4
    ends (step (placed 8 0 [0x23, 0x62, 0x64, 0x39] [])) (fun t => t.x 0x62 == 9) := by decide
theorem test_liD_letter :  -- I5
    ends (step (placed 8 0 [0x23, 0x62, 0x64, 0x61] [(0x62, 0x55)]))
      (fun t => t.x 0x62 == 0x55 && faulted .invalidOpcode 4 t) := by decide
theorem test_liX_cases :  -- I6, I7
    ends (step (placed 8 0 [0x23, 0x63, 0x78, 0x46] [])) (fun t => t.x 0x63 == 15) ∧
      ends (step (placed 8 0 [0x23, 0x63, 0x78, 0x66] [])) (fun t => t.x 0x63 == 15) := by
  decide
theorem test_liX_letter :  -- I10
    ends (step (placed 8 0 [0x23, 0x63, 0x78, 0x47] [(0x63, 0x55)]))
      (fun t => t.x 0x63 == 0x55 && faulted .invalidOpcode 4 t) := by decide
theorem test_liW_little_endian :  -- I11
    ends (step (placed 8 0 [0x23, 0x7A, 0x77, 0x78, 0x56, 0x34, 0x12] []))
      (fun t => t.x 0x7A == 0x12345678 && running 7 t) := by decide
theorem test_liM_reads_pc :  -- I14
    ends (step (placed 8 0 [0x23, 0x62, 0x6D, 0x2E] [])) (fun t => t.x 0x62 == 4) := by decide
theorem test_liI_wraps_twice :  -- I17
    ends (step (let s := placed 6 0 [0x23, 0x62, 0x69, 0x70] [(0x70, 0x47), (0x61, 99)]
                { s with mem := s.mem.write 7 0xE1 }))
      (fun t => t.x 0x62 == 99) := by decide
theorem test_li_invalid_mode :  -- I18
    ends (step (placed 8 0 [0x23, 0x61, 0x71, 0x35] [(0x61, 0x55)]))
      (fun t => t.x 0x61 == 0x55 && faulted .invalidOpcode 3 t) := by decide

/-! ## Memory and ports -/

theorem test_ld_wraps :  -- M1
    ends (step (let s := placed 6 0 [0x5B, 0x63, 0x61] [(0x61, 104)]
                { s with mem := s.mem.write 40 0xAB }))
      (fun t => t.x 0x63 == 0xAB && running 3 t) := by decide
theorem test_st_low_byte :  -- M2
    ends (step (placed 6 0 [0x5D, 0x61, 0x76] [(0x61, 104), (0x76, 0x1234)]))
      (fun t => t.mem.read 40 == 0x34 && running 3 t) := by decide
theorem test_st_top_of_memory :  -- M4
    ends (step (placed 8 0 [0x5D, 0x61, 0x76] [(0x61, 0xFFFFFFFF), (0x76, 0x99)]))
      (fun t => t.mem.read 255 == 0x99) := by decide
theorem test_out_full_word :  -- P2
    ends (step (placed 8 0 [0x3B, 0x70, 0x78] [(0x70, 0x1FF), (0x78, 0xDEADBEEF)]))
      (fun t => t.getPort 0xFF == 0xDEADBEEF && t.hookCalls.isEmpty) := by decide
theorem test_out_terminated :  -- P5
    ends (step (hooked [0x3B, 0x70, 0x78] [(0x70, 2), (0x78, 9)] .terminates))
      (fun t => t.getPort 2 == 9 && t.hostTerminated && running 3 t) := by decide
theorem test_in_reads_after_sense :  -- P4
    ends (step (hooked [0x2C, 0x63, 0x70] [(0x70, 3)]
        (.returns ((Vector.replicate 256 0).set 3 0x7F))))
      (fun t => t.x 0x63 == 0x7F && t.hookCalls.map (fun c => (c.kind, c.port)) == [(.sense, 3)]) := by
  decide
theorem test_in_terminated :  -- P6
    ends (step (hooked [0x2C, 0x63, 0x70] [(0x70, 3), (0x63, 0x55)] .terminates))
      (fun t => t.x 0x63 == 0x55 && t.hostTerminated && running 3 t) := by decide

/-! ## Control -/

theorem test_jmp_beyond_memory :  -- J3, first step
    ends (step (placed 4 0 [0x40, 0x7A] [(0x7A, 0x100)])) (running 0x100) := by decide
theorem test_skip_true :  -- K5
    ends (step (placed 8 0 [0x3F, 0x3E, 0x61, 0x62, 0x2B, 0x63, 0x61, 0x62] [(0x61, 0xFFFFFFFF), (0x62, 1)]))
      (running 4) := by decide
theorem test_skip_widest :  -- K24
    ends (step (placed 8 0 [0x3F, 0x3D, 0x61, 0x62, 0x23, 0x63, 0x77, 1, 2, 3, 4] [(0x61, 1), (0x62, 2)]))
      (fun t => t.x 0x63 == 0 && running 11 t) := by decide
theorem test_br_taken :  -- Br1
    ends (step (placed 8 0 [0x21, 0x21, 0x6E, 0x7A, 0x4C] [(0x6E, 3), (0x4C, 18)])) (running 18) := by
  decide
theorem test_br_bad_selector :  -- Br4
    ends (step (placed 8 0 [0x21, 0x5A, 0x61, 0x62, 0x74] [(0x74, 0x30)]))
      (faulted .invalidOpcode 5) := by decide
theorem test_call :  -- C1
    ends (step (placed 8 8 [0x28, 0x66] [(0x66, 12)]))
      (fun t => t.depth == 1 && t.stackEntry 0 == 10 && running 12 t) := by decide
theorem test_call_overflow :  -- C2, with a capacity of 4
    ends (step (called [1, 2, 3, 0x33] [0x28, 0x66] [(0x66, 12)]))
      (fun t => t.depth == 4 && t.stackEntry 3 == 0x33 && faulted .stackOverflow 2 t) := by
  decide
theorem test_ret :  -- C4
    ends (step (called [10] [0x29] [])) (fun t => t.depth == 0 && running 10 t) := by decide
theorem test_ret_underflow :  -- C5
    ends (step (placed 8 0 [0x29] [])) (faulted .stackUnderflow 1) := by decide
theorem test_label :  -- L1
    ends (step (placed 8 16 [0x3A, 0x4C] [])) (fun t => t.x 0x4C == 18 && running 18 t) := by
  decide
theorem test_blk_raw_label :  -- BK4
    ends (step (placed 8 0 [0x7B, 0x4C, 0x20, 0x7D, 0xCC, 0x20, 0x7D, 0x4C] []))
      (fun t => t.x 0x4C == 2 && running 8 t) := by decide
theorem test_blk_no_marker :  -- BK3
    ends (step (placed 3 0 [0x7B, 0x4C, 0x20, 0x20, 0x20, 0x20, 0x20, 0x7D] []))
      (fun t => t.x 0x4C == 2 && faulted .invalidProgram 2 t) := by decide
theorem test_end :  -- BK7
    ends (step (placed 8 6 [0x7D, 0x4C] [])) (fun t => t.x 0x4C == 0 && running 8 t) := by decide

/-! ## Terminate, no-op, invalid -/

theorem test_halt :  -- H1
    ends (step (placed 8 16 [0x00] [])) (faulted .noFault 17) := by decide
theorem test_nop :  -- H2, one step, each whitespace byte
    ([0x09, 0x0A, 0x0B, 0x0C, 0x0D, 0x20] : List Byte).all
      (fun b => ends (step (placed 8 0 [b] [])) (running 1)) = true := by decide
theorem test_invalid_opcode :  -- H3
    ends (step (placed 8 5 [0x41] [])) (faulted .invalidOpcode 6) := by decide
theorem test_fetch_beyond_memory :  -- H6
    ends (step (placed 4 16 [] [])) (faulted .bounds 16) := by decide
theorem test_pc_wraps_with_full_memory :  -- H9
    ends (step (placed 32 0xFFFFFFFF [0x20] [])) (running 0) := by decide

/-! ## Commands -/

theorem test_load_drops_the_rest :  -- P1b
    ends (cmdLoad [0xAA, 0xBB, 0xCC, 0xDD, 0xEE, 0xFF] (placed 2 3 [] []))
      (fun t => (debugSnapshot 0 8 t).bytes == [0xAA, 0xBB, 0xCC, 0xDD] && running 0 t) := by
  decide
theorem test_reset_keeps_memory :  -- H11
    ends (cmdReset (raiseFault .division (placed 8 4 [0x2F] [(0x61, 7)])))
      (fun t => t.x 0x61 == 0 && t.mem.read 4 == 0x2F && running 0 t) := by decide
theorem test_load_after_host_termination :  -- R231: LOAD is defined in every state
    ends (cmdLoad [0x00] (placed 8 4 [] [(0x61, 7)]).terminate)
      (fun t => t.x 0x61 == 7 && !t.stopped && running 0 t) := by decide
theorem test_init_size :
    ends (cmdInit [0x01, 0x02] State.reset) (fun t => t.memSize == 2 && t.mem.read 1 == 0x02) ∧
      ends (cmdInit [0x01, 0x02, 0x03] State.reset) (fun _ => true) = false := by decide

/-! ## Witnesses: states and operands that meet the hypotheses of each statement

A hypothesis over `exec` or `step` answering a next state is met through `next_of_ends`. -/

/-- ADD a := a + a at address 0, running. -/
def addState : State := placed 8 0 [0x2B, 0x61, 0x61, 0x61] [(0x61, 3)]

theorem addState_inv : addState.Inv := by
  unfold State.Inv State.memoryOk State.stackOk State.statusOk; decide

theorem hookedState_inv : (hooked [0x2C, 0x63, 0x70] [(0x70, 3)] .terminates).Inv := by
  unfold State.Inv State.memoryOk State.stackOk State.statusOk; decide

theorem exists_next {o : Host.Outcome State Fault Refusal} (h : ends o (fun _ => true) = true) :
    ∃ t, o = .next t := (next_of_ends h).imp fun _ h => h.1

theorem witness_StepKeepsInvariant : ∃ s t, s.Inv ∧ step s = .next t :=
  ⟨addState, (exists_next (by decide)).imp fun _ h => ⟨addState_inv, h⟩⟩

theorem witness_ControlCommandsKeepInvariant :
    addState.Inv ∧ (∃ t, cmdInit [1, 2] addState = .next t) ∧ (∃ t, cmdLoad [1, 2] addState = .next t) ∧
      ∃ t, cmdReset addState = .next t :=
  ⟨addState_inv, exists_next (by decide), exists_next (by decide), exists_next (by decide)⟩

/-- The smallest and the largest legal buffer, a byte of one, and two sizes that are refused. -/
theorem witness_InitBindsBufferAndClearsState :
    ([7] : List Byte).length = 2 ^ 0 ∧ ([7] : List Byte)[0]? = some 7 ∧
      (List.replicate (2 ^ 32) (0 : Byte)).length = 2 ^ 32 ∧
      (∀ k, k ≤ 32 → ([] : List Byte).length ≠ 2 ^ k) ∧
      (∀ k, k ≤ 32 → ([1, 2, 3] : List Byte).length ≠ 2 ^ k) :=
  ⟨rfl, rfl, List.length_replicate, by decide, by decide⟩

/-- The first and the last byte of memory, and the addresses where the program ends. -/
theorem witness_LoadCopiesProgramAndRestarts :
    (placed 2 0 [] []).memoryOk ∧ (placed 2 0 [] []).terminate.memoryOk ∧
      (placed 2 0 [] []).memSize = 4 ∧ ([1, 2, 3, 4, 5] : List Byte)[0]? = some 1 ∧
      ([1, 2, 3, 4, 5] : List Byte)[3]? = some 4 ∧ min 5 4 ≤ 4 ∧ min 2 4 ≤ 2 := by
  unfold State.memoryOk; decide

/-- On a halted CORE, and on one whose run the host has ended. -/
theorem witness_OnlyCommandsLeaveTheHaltedState :
    addState.halt.stopped = true ∧ addState.terminate.stopped = true ∧
      ∀ s ∈ [addState.halt, addState.terminate],
        (∃ t, command (.init [1, 2]) s = .next t) ∧ (∃ t, command (.load [1, 2]) s = .next t) ∧
          (∃ t, command .reset s = .next t) ∧ ∃ t, command .step s = .next t := by
  refine ⟨rfl, rfl, fun s h => ?_⟩
  simp only [List.mem_cons, List.not_mem_nil, or_false] at h
  rcases h with rfl | rfl <;>
    exact ⟨exists_next (by decide), exists_next (by decide), exists_next (by decide),
      exists_next (by decide)⟩

theorem addState_bytes : BytesAt addState (encode (.add 0x61 0x61 0x61)) :=
  bytesAt_of_standsAt (by decide)

theorem witness_StepRunsDecodedInstruction :
    addState.stopped = false ∧ decode [0x2B, 0x61, 0x61, 0x61] = .ok (.add 0x61 0x61 0x61) [] ∧
      BytesAt addState [0x2B, 0x61, 0x61, 0x61] ∧ BytesAt addState (encode (.add 0x61 0x61 0x61)) :=
  ⟨by decide, by decide, addState_bytes, addState_bytes⟩

/-- The first and the last byte of memory, and the top of the address space. -/
theorem witness_FetchReadsByteAndAdvancesPc :
    (placed 8 0 [] []).pc.toNat < (placed 8 0 [] []).memSize ∧
      (placed 8 255 [] []).pc.toNat < (placed 8 255 [] []).memSize ∧
      (placed 32 0xFFFFFFFF [] []).pc.toNat < (placed 32 0xFFFFFFFF [] []).memSize ∧
      (placed 8 256 [] []).memSize ≤ (placed 8 256 [] []).pc.toNat := by decide

/-- The first address beyond memory; a first operand byte (vector M7) and a last one (A19) beyond it. -/
theorem witness_FailedFetchFaultsBounds :
    ((placed 4 16 [] []).stopped = false ∧ (placed 4 16 [] []).memSize ≤ (placed 4 16 [] []).pc.toNat) ∧
    ((placed 0 0 [0x5D] []).stopped = false ∧ 1 < (encode (.st 0x61 0x76)).length ∧
      BytesAt (placed 0 0 [0x5D] []) ((encode (.st 0x61 0x76)).take 1) ∧
      OutOfMemory (placed 0 0 [0x5D] []) 1) ∧
    ((placed 2 1 [0x2B, 0x63, 0x61] []).stopped = false ∧ 3 < (encode (.add 0x63 0x61 0x62)).length ∧
      BytesAt (placed 2 1 [0x2B, 0x63, 0x61] []) ((encode (.add 0x63 0x61 0x62)).take 3) ∧
      OutOfMemory (placed 2 1 [0x2B, 0x63, 0x61] []) 3) := by
  unfold OutOfMemory
  exact ⟨by decide, ⟨by decide, by decide, bytesAt_of_standsAt (by decide), by decide⟩,
    ⟨by decide, by decide, bytesAt_of_standsAt (by decide), by decide⟩⟩

/-- The ends of two ranges of invalid opcode bytes, and bytes just outside them. -/
theorem witness_InvalidOpcodeByteFaults :
    ((placed 8 0 [0x01] []).stopped = false ∧ BytesAt (placed 8 0 [0x01] []) [0x01] ∧
      IsInvalidOpcode 0x01) ∧
    (BytesAt (placed 8 0 [0xFF] []) [0xFF] ∧ IsInvalidOpcode 0xFF) ∧
    ¬ IsInvalidOpcode 0x00 ∧ ¬ IsInvalidOpcode 0x7E ∧ (encode .halt).head? = some 0x00 := by
  unfold IsInvalidOpcode
  exact ⟨⟨by decide, bytesAt_of_standsAt (by decide), by decide⟩,
    ⟨bytesAt_of_standsAt (by decide), by decide⟩, by decide, by decide, by decide⟩

theorem witness_InvalidImmediateModeFaults :
    (placed 8 0 [0x23, 0x61, 0x71] []).stopped = false ∧
      BytesAt (placed 8 0 [0x23, 0x61, 0x71] []) [0x23, 0x61, 0x71] ∧ ¬ IsMode 0x71 := by
  unfold IsMode; exact ⟨by decide, bytesAt_of_standsAt (by decide), by decide⟩

theorem witness_StepOfStoppedCoreChangesNothing :
    (addState.halt.halted = true) ∧ (addState.terminate.hostTerminated = true) := by decide

theorem witness_OpcodeFixesLengthExceptLi :
    ((encode (.add 1 2 3)).head? = (encode (.add 4 5 6)).head? ∧
      (encode (.add 1 2 3)).head? ≠ some 0x23) ∧
    (encode (.liW 0 1 2 3 4)).head? = some 0x23 ∧ (encode (.liD 0 0x31)).head? = some 0x23 := by decide

theorem witness_DivModFloorOrFault :
    addState.x 0x61 ≠ 0 ∧ addState.x 0x62 = 0 := by decide

theorem witness_QuotientAndRemainderRebuildDividend : addState.x 0x61 ≠ 0 := by decide

/-- The ends of every range of a digit payload, and the bytes just outside. -/
theorem witness_LoadDigitValueOrFault :
    (∀ v ∈ ([0x30, 0x39] : List Byte), 0x30 ≤ v.toNat ∧ v.toNat ≤ 0x39) ∧
    (∀ v ∈ ([0x2F, 0x3A] : List Byte), v.toNat < 0x30 ∨ 0x39 < v.toNat) ∧
    (∀ v ∈ ([0x61, 0x66] : List Byte), 0x61 ≤ v.toNat ∧ v.toNat ≤ 0x66) ∧
    (∀ v ∈ ([0x41, 0x46] : List Byte), 0x41 ≤ v.toNat ∧ v.toNat ≤ 0x46) ∧
    (∀ v ∈ ([0x2F, 0x3A, 0x40, 0x47, 0x60, 0x67] : List Byte),
      v.toNat < 0x30 ∨ (0x39 < v.toNat ∧ v.toNat < 0x41) ∨
        (0x46 < v.toNat ∧ v.toNat < 0x61) ∨ 0x66 < v.toNat) := by decide

/-- A byte with bit 7 set names the register without it (vector I17). -/
theorem witness_LoadCopiesRegister :
    let s : State := { placed 6 0 [] [(0x70, 0x47)] with mem := [(7, 0xE1)] }
    (0x61 : Fin 128).val = (s.mem.read ((s.x 0x70).toNat % s.memSize)).toNat % 128 := by decide

theorem witness_WrapIsModuloMemorySize : (placed 32 0 [] []).cfg.memLog2 = 32 := by decide

theorem witness_StWritesWrappedByte :
    (placed 6 0 [] [(0x61, 104)]).memoryOk ∧
      (placed 6 0 [] [(0x61, 104)]).wrap ((placed 6 0 [] [(0x61, 104)]).x 0x61) = 40 ∧ 63 ≠ 40 := by
  unfold State.memoryOk; decide

/-- Two addresses that wrap to one byte, and a value that fits in a byte. -/
theorem witness_StoreThenLoadReturnsStoredByte :
    let s := placed 6 0 [] [(0x61, 104), (0x62, 40), (0x76, 0xFF)]
    s.memoryOk ∧ s.wrap (s.x 0x62) = s.wrap (s.x 0x61) ∧ (s.x 0x76).toNat < 256 := by
  unfold State.memoryOk; decide

theorem witness_StoreIsSeenByTheNextFetch :
    let s := placed 6 0 [] [(0x61, 104)]
    s.memoryOk ∧ (40 : Word).toNat = s.wrap (s.x 0x61) := by
  unfold State.memoryOk; decide

/-- Port 255, named by a register whose upper bits are set, with both hooks attached. The third clauses of
`InReadsPortAfterSense` and `OutWritesPortThenEmits` are met at `witness_HostTerminationKeepsStateAtCall`. -/
def portState (answer : HookAnswer) : State := hooked [] [(0x70, 0x1FF), (0x78, 7)] answer

theorem portState_answer (answer : HookAnswer) (calls : List HookCall) :
    (portState answer).hookAnswer calls = answer := rfl

theorem portState_port (answer : HookAnswer) :
    (255 : Byte).toNat = ((portState answer).x 0x70).toNat % 256 :=
  (by decide : (255 : Byte).toNat =
    ((placed 8 0 [] [(0x70, 0x1FF), (0x78, 7)]).x 0x70).toNat % 256)

theorem portState_written (answer : HookAnswer) (r : Byte) :
    (((portState answer).setPort 255 ((portState answer).x 0x78)).ports)[r.toNat]'r.isLt =
      if r = 255 then (portState answer).x 0x78 else (portState answer).getPort r := by
  by_cases h : r = 255
  · subst h; exact State.getPort_setPort_self _ _ _
  · rw [if_neg h]; exact State.getPort_setPort_ne _ _ h

theorem witness_InReadsPortAfterSense :
    ((255 : Byte).toNat = ((placed 8 0 [] [(0x70, 0x1FF)]).x 0x70).toNat % 256 ∧
      (placed 8 0 [] [(0x70, 0x1FF)]).cfg.sensePresent = false) ∧
    ∀ bank : Ports, (255 : Byte).toNat = ((portState (.returns bank)).x 0x70).toNat % 256 ∧
      (portState (.returns bank)).cfg.sensePresent = true ∧
      (portState (.returns bank)).hookAnswer
        ({ kind := .sense, port := 255, ports := (portState (.returns bank)).ports } ::
          (portState (.returns bank)).hookCalls) = .returns bank :=
  ⟨by decide, fun _ => ⟨portState_port _, rfl, rfl⟩⟩

theorem witness_OutWritesPortThenEmits :
    ((255 : Byte).toNat = ((placed 8 0 [] [(0x70, 0x1FF)]).x 0x70).toNat % 256 ∧
      (placed 8 0 [] [(0x70, 0x1FF)]).cfg.emitPresent = false ∧ (254 : Byte) ≠ 255) ∧
    ∀ bank : Ports, ∃ written : Ports,
      (255 : Byte).toNat = ((portState (.returns bank)).x 0x70).toNat % 256 ∧
      (portState (.returns bank)).cfg.emitPresent = true ∧
      (∀ r : Byte, written[r.toNat]'r.isLt =
        if r = 255 then (portState (.returns bank)).x 0x78 else (portState (.returns bank)).getPort r) ∧
      (portState (.returns bank)).hookAnswer
        ({ kind := .emit, port := 255, ports := written } :: (portState (.returns bank)).hookCalls) =
          .returns bank :=
  ⟨by decide, fun _ => ⟨_, portState_port _, rfl, portState_written _, rfl⟩⟩

/-- The hypotheses of a statement about a hook call that gets this answer, IN's and OUT's. -/
def HookHypotheses (s : State) (p v q : Byte) (answer : HookAnswer) : Prop :=
  q.toNat = (s.x p).toNat % 256 ∧ s.cfg.sensePresent = true ∧ s.cfg.emitPresent = true ∧
    s.hookAnswer ({ kind := .sense, port := q, ports := s.ports } :: s.hookCalls) = answer ∧
    ∃ written : Ports,
      (∀ r : Byte, written[r.toNat]'r.isLt = if r = q then s.x v else s.getPort r) ∧
      s.hookAnswer ({ kind := .emit, port := q, ports := written } :: s.hookCalls) = answer

theorem portState_hook (answer : HookAnswer) :
    HookHypotheses (portState answer) 0x70 0x78 255 answer :=
  ⟨portState_port _, rfl, rfl, rfl, _, portState_written _, rfl⟩

theorem witness_HostTerminationKeepsStateAtCall :
    HookHypotheses (portState .terminates) 0x70 0x78 255 .terminates := portState_hook _

theorem witness_HookThatNeverReturnsOrBreaksDutyStops :
    HookHypotheses (portState .neverReturns) 0x70 0x78 255 .neverReturns ∧
      HookHypotheses (portState .breaksDuty) 0x70 0x78 255 .breaksDuty :=
  ⟨portState_hook _, portState_hook _⟩

/-- Every relation at a pair of operands it holds for and at one it does not, and a bad selector. -/
theorem witness_BrBranchesWhenRelationHolds :
    (∀ c ∈ ([0x3D, 0x21, 0x3E, 0x3C] : List Byte), isRelation c = true) ∧ isRelation 0x5A = false ∧
    RelationHolds 0x3D 5 5 ∧ RelationHolds 0x21 5 6 ∧ RelationHolds 0x3E 0xFFFFFFFF 1 ∧
    RelationHolds 0x3C 1 0xFFFFFFFF ∧ ¬ RelationHolds 0x3D 5 6 ∧ ¬ RelationHolds 0x21 5 5 ∧
    ¬ RelationHolds 0x3E 5 5 ∧ ¬ RelationHolds 0x3C 5 5 := by
  unfold RelationHolds
  exact ⟨by decide, by decide, by decide, by decide, by decide, by decide, by decide, by decide,
    by decide, by decide⟩

/-- The same on registers of a state: equal operands and different ones. -/
theorem witness_SkipStepsOverWhenRelationFails :
    isRelation 0x3D = true ∧ RelationHolds 0x3D (addState.x 0x61) (addState.x 0x61) ∧
      ¬ RelationHolds 0x3D (addState.x 0x61) (addState.x 0x62) ∧ isRelation 0x5A = false := by
  unfold RelationHolds; decide

/-- The four ends of a skip (vectors K20, K28, K25, K26). -/
theorem witness_SkipOneFetchesAndDiscards :
    BytesAt addState (encode (.add 0x61 0x61 0x61)) ∧
    (2 < (encode (.add 0x63 0x61 0x62)).length ∧
      BytesAt (placed 3 6 [0x2B, 0x63] []) ((encode (.add 0x63 0x61 0x62)).take 2) ∧
      OutOfMemory (placed 3 6 [0x2B, 0x63] []) 2) ∧
    (BytesAt (placed 8 4 [0x41] []) [0x41] ∧ IsInvalidOpcode 0x41) ∧
    (BytesAt (placed 8 4 [0x23, 0x63, 0x71] []) [0x23, 0x63, 0x71] ∧ ¬ IsMode 0x71) := by
  unfold OutOfMemory IsInvalidOpcode IsMode
  exact ⟨addState_bytes, ⟨by decide, bytesAt_of_standsAt (by decide), by decide⟩,
    ⟨bytesAt_of_standsAt (by decide), by decide⟩, bytesAt_of_standsAt (by decide), by decide⟩

/-- Room for exactly one more call, and a full stack. -/
theorem witness_CallPushesReturnAddress :
    ((called [1, 2, 3] [] []).stackOk ∧
      (called [1, 2, 3] [] []).depth < (called [1, 2, 3] [] []).cfg.stackDepth ∧ (0 : Nat) ≠ 3) ∧
    ((called [1, 2, 3, 4] [] []).stackOk ∧
      (called [1, 2, 3, 4] [] []).depth = (called [1, 2, 3, 4] [] []).cfg.stackDepth) := by
  unfold State.stackOk; decide

theorem witness_RetPopsReturnAddress :
    0 < (called [10] [] []).depth ∧ (called [] [] []).depth = 0 := by decide

/-- As many nested calls as the stack has room for, from an empty stack. -/
theorem witness_NestedCallsThenReturnsBalance :
    addState.stackOk ∧ addState.depth + (([(11, 0x67), (20, 0x68), (30, 0x69)] : List (Word × Byte)).length + 1) ≤
      addState.cfg.stackDepth ∧
      ([14, 13, 12, 10] : List Word).length =
        ([(11, 0x67), (20, 0x68), (30, 0x69)] : List (Word × Byte)).length + 1 ∧ addState.depth = 0 := by
  unfold State.stackOk; decide

/-- A marker at the very first place scanned and in the last two bytes of memory (BK8), one after
other bytes, and a memory that holds none (BK9). -/
theorem witness_BlkJumpsPastFirstMarker :
    (let s := placed 2 2 [0x7D, 0x4C] []
     s.pc.toNat ≤ 2 ∧ MarkerAt s 0x4C 2 ∧ ∀ j, s.pc.toNat ≤ j → j < 2 → ¬ MarkerAt s 0x4C j) ∧
    (let s := placed 3 5 [0x20, 0x7D, 0x4C] []
     s.pc.toNat ≤ 6 ∧ MarkerAt s 0x4C 6 ∧ ∀ j, s.pc.toNat ≤ j → j < 6 → ¬ MarkerAt s 0x4C j) ∧
    (let s := placed 2 2 [0x7D] []
     ∀ k, s.pc.toNat ≤ k → ¬ MarkerAt s 0x4C k) ∧ reg 0x4C ≠ pcReg := by
  refine ⟨⟨by decide, by unfold MarkerAt; decide, fun j h1 h2 => ?_⟩,
    ⟨by decide, by unfold MarkerAt; decide, fun j h1 h2 => ?_⟩, fun k h1 h2 => ?_, by decide⟩
  · have : 2 ≤ j := h1
    omega
  · have : 5 ≤ j := h1
    obtain rfl : j = 5 := by omega
    unfold MarkerAt; decide
  · have h : 2 ≤ k := h1
    have h3 : k + 1 < 4 := h2.1
    obtain rfl : k = 2 := by omega
    exact absurd h2.2.2 (by decide)

theorem witness_BlkMarkerAtTopOfAddressSpace :
    let s := placed 32 0xFFFFFFFE [0x7D, 0x4C] []
    s.pc.toNat ≤ 0xFFFFFFFE ∧ MarkerAt s 0x4C 0xFFFFFFFE ∧ 0xFFFFFFFE + 2 = 2 ^ 32 ∧
      ∀ j, s.pc.toNat ≤ j → j < 0xFFFFFFFE → ¬ MarkerAt s 0x4C j := by
  refine ⟨by decide, by unfold MarkerAt; decide, by decide, fun j h1 h2 => ?_⟩
  have : 0xFFFFFFFE ≤ j := h1
  omega

theorem witness_HaltIsClean : addState.statusOk ∧ addState.halted = false := by
  unfold State.statusOk; decide

theorem witness_WhitespaceIsNoOp :
    (Instr.nopSp, (0x20 : Byte)) ∈ [(Instr.nopHt, (0x09 : Byte)), (.nopLf, 0x0A), (.nopVt, 0x0B),
      (.nopFf, 0x0C), (.nopCr, 0x0D), (.nopSp, 0x20)] := by decide

/-- For the frames of the whole machine: an instruction that is none of the excepted ones. -/
theorem witness_OnlyStoresWriteMemory :
    (∃ t, exec (.add 0x61 0x61 0x61) addState = .next t) ∧ ∀ a v, Instr.add 0x61 0x61 0x61 ≠ .st a v :=
  ⟨⟨_, rfl⟩, nofun⟩

theorem witness_OnlyCallAndRetTouchStack :
    (∃ t, exec (.add 0x61 0x61 0x61) addState = .next t) ∧
      (∀ b, Instr.add 0x61 0x61 0x61 ≠ .call b) ∧ Instr.add 0x61 0x61 0x61 ≠ .ret :=
  ⟨⟨_, rfl⟩, nofun, nofun⟩

theorem witness_OnlyPortInstructionsTouchPorts :
    (∃ t, exec (.add 0x61 0x61 0x61) addState = .next t) ∧
      (∀ d p, Instr.add 0x61 0x61 0x61 ≠ .inp d p) ∧ ∀ p v, Instr.add 0x61 0x61 0x61 ≠ .out p v :=
  ⟨⟨_, rfl⟩, nofun, nofun⟩

/-- HALT, a division by zero, and an addition. -/
theorem witness_OnlyHaltAndFaultsWriteStatus :
    (∃ t, exec .halt addState = .next t) ∧ (∃ t, exec (.div 0x61 0x61 0x62) addState = .next t) ∧
      (∃ t, exec (.add 0x61 0x61 0x61) addState = .next t) ∧ addState.halted = false ∧
      addState.code = .noFault :=
  ⟨⟨_, rfl⟩, ⟨_, rfl⟩, ⟨_, rfl⟩, rfl, rfl⟩

theorem witness_StatusIsNotReadable : ∃ t, exec (.add 0x61 0x61 0x61) addState = .next t := ⟨_, rfl⟩

theorem witness_StepKeepsConfiguration : ∃ t, step addState = .next t := exists_next (by decide)

theorem witness_StepEndsUnlessAHookStopsIt :
    addState.cfg.sensePresent = false ∧ addState.cfg.emitPresent = false := by decide

theorem witness_FaultChangesOnlyPcAndLabel :
    (∃ t, exec (.div 0x61 0x61 0x62) addState = .next t ∧ t.code ≠ .noFault) ∧
      (∃ t, exec (.blk 0x4C) (placed 2 2 [] []) = .next t ∧ t.code ≠ .noFault) ∧
      addState.code = .noFault ∧ (placed 2 2 [] []).code = .noFault := by
  have faults : ∀ o : Host.Outcome State Fault Refusal,
      ends o (fun t => decide (t.code ≠ .noFault)) = true → ∃ t, o = .next t ∧ t.code ≠ .noFault :=
    fun o h => (next_of_ends h).imp fun _ h => ⟨h.1, of_decide_eq_true h.2⟩
  exact ⟨faults _ (by decide), faults _ (by decide), rfl, rfl⟩

/-- Two states that differ in a dead entry, before a step that goes on, one that never ends and one
that is refused. -/
theorem witness_DeadStackEntriesAreUnobservable :
    let other := fun s : State => { s with stack := [7, 8, 9, 10] }
    (addState.stackOk ∧ SameButDeadStack addState (other addState) ∧ other addState ≠ addState ∧
      ∃ t, step addState = .next t) ∧
    (SameButDeadStack (hooked [0x2C, 0x63, 0x70] [] .neverReturns)
        (other (hooked [0x2C, 0x63, 0x70] [] .neverReturns)) ∧
      step (hooked [0x2C, 0x63, 0x70] [] .neverReturns) = .fault .hookNeverReturns) ∧
    (SameButDeadStack (hooked [0x2C, 0x63, 0x70] [] .breaksDuty)
        (other (hooked [0x2C, 0x63, 0x70] [] .breaksDuty)) ∧
      step (hooked [0x2C, 0x63, 0x70] [] .breaksDuty) = .refused .hookBreaksDuty) := by
  refine ⟨⟨by unfold State.stackOk; decide, ⟨rfl, rfl, fun k h => absurd h (Nat.not_lt_zero k)⟩, ?_,
    exists_next (by decide)⟩, ⟨⟨rfl, rfl, fun k h => absurd h (Nat.not_lt_zero k)⟩, rfl⟩,
    ⟨rfl, rfl, fun k h => absurd h (Nat.not_lt_zero k)⟩, rfl⟩
  intro h
  exact absurd (congrArg State.stack h) (by decide)

/-- A run that ends: HALT at address 0. -/
theorem witness_RunEndsInOneWay :
    addState.halt.stopped = true ∧ ∃ t, RunEndsIn (placed 8 0 [0x00] []) t := by
  refine ⟨by decide, ?_⟩
  obtain ⟨t, h, hs⟩ := next_of_ends (o := run 2 (placed 8 0 [0x00] [])) (p := State.stopped) (by decide)
  exact ⟨t, 2, h, hs⟩

/-- Every clause, the last for the PC itself and for another register. -/
theorem witness_PcReadsNextAddressAndJumpsWhenWritten :
    ((placed 8 0 [0x23, 0x62, 0x6D, 0x2E] []).stopped = false ∧
      BytesAt (placed 8 0 [0x23, 0x62, 0x6D, 0x2E] []) [0x23, 0x62, 0x6D, 0x2E]) ∧
    (addState.stopped = false ∧ BytesAt addState (encode (.add 0x61 0x61 0x61))) ∧
    ((0x2E : Byte).toNat % 128 = 0x2E ∧ (0xAE : Byte).toNat % 128 = 0x2E ∧
      (0x2F : Byte).toNat % 128 ≠ 0x2E) ∧
    BytesAt (placed 8 0 [0x23, 0x2E, 0x6D, 0x61] []) [0x23, 0x2E, 0x6D, 0x61] ∧
    BytesAt (placed 8 0 [0x23, 0x2E, 0x6D, 0xAE] []) [0x23, 0x2E, 0x6D, 0xAE] ∧
    reg 0x61 ≠ pcReg ∧ reg 0xAE = pcReg :=
  ⟨⟨by decide, bytesAt_of_standsAt (by decide)⟩, ⟨by decide, addState_bytes⟩, by decide,
    bytesAt_of_standsAt (by decide), bytesAt_of_standsAt (by decide), by decide, by decide⟩

end Sys2Proof.Tests
end

