-- ==== Sys2Proof/Proofs/Scope.lean ====
section
/-! PROOFS. Parameters and invariant (spec 00_scope.md): no STEP changes the parameters of a CORE, and
the state INIT leaves satisfies the invariant. -/

namespace Sys2Proof.Machine

/-! ## The configuration (rules R5, R32, R34) -/

@[simp] theorem State.fetched_cfg (s : State) (k : Nat) : (s.fetched k).cfg = s.cfg := rfl

theorem RegsOnly.cfg_eq {s t : State} (h : RegsOnly s t) : t.cfg = s.cfg := by
  unfold RegsOnly at h
  rw [h]

/-- No effect of an instruction writes the configuration. -/
theorem Effect.cfg_eq {i : Instr} {s t : State} (h : Effect s i t) : t.cfg = s.cfg := by
  cases h with
  | regs h => exact h.cfg_eq
  | fault _ h _ => rw [raiseFault_cfg, h.cfg_eq]
  | halt => exact State.halt_cfg s
  | store a v => exact State.memWrite_cfg s _ _
  | call t _ => simp
  | ret _ => simp
  | port _ h => rw [h]
  | terminated _ h => rw [h]

theorem exec_keeps_cfg {i : Instr} {s t : State} (h : exec i s = .next t) : t.cfg = s.cfg :=
  (exec_effect h).cfg_eq

theorem step_keeps_cfg {s t : State} (h : step s = .next t) : t.cfg = s.cfg := by
  rcases step_cases s with ⟨-, e⟩ | ⟨-, i, e, -⟩ | ⟨-, c, k, -, e⟩ <;> rw [e] at h
  · cases h; rfl
  · rw [exec_keeps_cfg h, State.fetched_cfg]
  · cases h; rw [raiseFault_cfg, State.fetched_cfg]

/-- Settles O53: a STEP is idle, runs one effect from a state that only moved the PC, or faults in the
decode phase, and none of the three writes the configuration. -/
theorem stepKeepsConfiguration : Obligations.StepKeepsConfiguration :=
  fun _ _ => step_keeps_cfg

/-! ## The state INIT leaves (rules R5, R28, R30, R32) -/

/-- A buffer of the right size and a positive capacity suffice: INIT clears the rest (rule R230). -/
theorem State.initial_inv {cfg : Config} {mem : Memory} (hd : 0 < cfg.stackDepth) (hm : mem.wf)
    (hs : ∀ c ∈ mem, c.1 < cfg.memSize) : (State.initial cfg mem).Inv := by
  refine ⟨⟨hm, hs⟩, ⟨hd, ?_, Nat.zero_le _⟩, ?_, ?_⟩
  · exact List.length_replicate
  · exact fun hc => absurd rfl hc
  · exact fun ht => absurd ht Bool.false_ne_true

/-- Settles O2: `State.reset` is what INIT leaves for a capacity of 256 and no listed byte. -/
theorem resetStateSatisfiesInvariant : Obligations.ResetStateSatisfiesInvariant :=
  State.initial_inv (by decide) ⟨.nil, nofun⟩ nofun

end Sys2Proof.Machine
end

/-! PROOFS. The state and its invariant (spec 10_state.md): what an instruction does to memory, the call
stack, the ports and the status; that it does the same from states that differ only where it does not
look; and register names. -/

namespace Sys2Proof.Machine

/-! ## Frames of the effects of an instruction -/

/-- IN and OUT, the instructions that reach the ports and the host (rule R31). -/
def IsPortAccess (i : Instr) : Prop := (∃ d p, i = .inp d p) ∨ ∃ p v, i = .out p v

/-- CALL and RET, the instructions that reach the call stack (rule R30). -/
def IsStackAccess (i : Instr) : Prop := (∃ b, i = .call b) ∨ i = .ret

theorem not_isPortAccess {i : Instr} (hin : ∀ d p, i ≠ .inp d p) (hout : ∀ p v, i ≠ .out p v) :
    ¬ IsPortAccess i := by
  rintro (⟨d, p, e⟩ | ⟨p, v, e⟩)
  · exact hin d p e
  · exact hout p v e

theorem not_isStackAccess {i : Instr} (hcall : ∀ b, i ≠ .call b) (hret : i ≠ .ret) :
    ¬ IsStackAccess i := by
  rintro (⟨b, e⟩ | e)
  · exact hcall b e
  · exact hret e

theorem RegsOnly.mem_eq {s t : State} (h : RegsOnly s t) : t.mem = s.mem := by
  unfold RegsOnly at h
  rw [h]

theorem RegsOnly.sameStack {s t : State} (h : RegsOnly s t) : SameStack s t := by
  unfold RegsOnly at h
  exact ⟨by rw [h], by rw [h]⟩

theorem RegsOnly.samePorts {s t : State} (h : RegsOnly s t) : SamePorts s t := by
  unfold RegsOnly at h
  exact ⟨by rw [h], by rw [h], by rw [h]⟩

theorem RegsOnly.sameStatus {s t : State} (h : RegsOnly s t) : SameStatus s t := by
  unfold RegsOnly at h
  exact ⟨by rw [h], by rw [h], by rw [h]⟩

/-- What an instruction does to memory: nothing, or one store. -/
theorem Effect.mem_cases {i : Instr} {s t : State} (h : Effect s i t) :
    t.mem = s.mem ∨ ∃ a b, t = s.memWrite a b := by
  cases h with
  | regs h => exact .inl h.mem_eq
  | fault _ h _ => exact .inl h.mem_eq
  | halt => exact .inl rfl
  | store a v => exact .inr ⟨_, _, rfl⟩
  | call t _ => exact .inl rfl
  | ret _ => exact .inl rfl
  | port _ h => left; rw [h]
  | terminated _ h => left; rw [h]

/-- What an instruction does to the call stack: nothing, or it is a CALL that finds room, or a RET from
a stack that is not empty. -/
theorem Effect.stack_cases {i : Instr} {s t : State} (h : Effect s i t) :
    SameStack s t ∨
    (∃ b, i = .call b ∧ s.stackFull = false ∧ t = (s.push s.pc).setPc (s.x b)) ∨
    (i = .ret ∧ s.depth ≠ 0 ∧ t = s.pop.setPc (s.stackEntry (s.depth - 1))) := by
  cases h with
  | regs h => exact .inl h.sameStack
  | fault _ h _ => exact .inl h.sameStack
  | halt => exact .inl ⟨rfl, rfl⟩
  | store a v => exact .inl ⟨rfl, rfl⟩
  | call b hf => exact .inr (.inl ⟨b, rfl, hf, rfl⟩)
  | ret hd => exact .inr (.inr ⟨rfl, hd, rfl⟩)
  | port _ h => left; rw [h]; exact ⟨rfl, rfl⟩
  | terminated _ h => left; rw [h]; exact ⟨rfl, rfl⟩

/-- Only IN and OUT change the port bank or call a hook. -/
theorem Effect.samePorts {i : Instr} {s t : State} (h : Effect s i t) (hi : ¬ IsPortAccess i) :
    SamePorts s t := by
  cases h with
  | regs h => exact h.samePorts
  | fault _ h _ => exact h.samePorts
  | halt => exact ⟨rfl, rfl, rfl⟩
  | store a v => exact ⟨rfl, rfl, rfl⟩
  | call b _ => exact ⟨rfl, rfl, rfl⟩
  | ret _ => exact ⟨rfl, rfl, rfl⟩
  | port hp _ => exact absurd hp hi
  | terminated hp _ => exact absurd hp hi

/-- What an instruction does to the status: nothing, the clean halt of HALT, the halt of a fault, or the
end of the run inside a hook. -/
theorem Effect.status_cases {i : Instr} {s t : State} (h : Effect s i t) :
    SameStatus s t ∨
    (i = .halt ∧ t = s.halt) ∨
    (t.halted = true ∧ t.code ≠ .noFault ∧ t.hostTerminated = s.hostTerminated) ∨
    (IsPortAccess i ∧ t.halted = s.halted ∧ t.code = s.code ∧ t.hostTerminated = true) := by
  cases h with
  | regs h => exact .inl h.sameStatus
  | fault hc h _ =>
    obtain ⟨-, -, hterm⟩ := h.sameStatus
    exact .inr (.inr (.inl ⟨rfl, hc, hterm⟩))
  | halt => exact .inr (.inl ⟨rfl, rfl⟩)
  | store a v => exact .inl ⟨rfl, rfl, rfl⟩
  | call b _ => exact .inl ⟨rfl, rfl, rfl⟩
  | ret _ => exact .inl ⟨rfl, rfl, rfl⟩
  | port _ h => left; rw [h]; exact ⟨rfl, rfl, rfl⟩
  | terminated hp h =>
    refine .inr (.inr (.inr ⟨hp, ?_⟩))
    rw [h]; exact ⟨rfl, rfl, rfl⟩

/-! ## The invariant of a CORE (rules R28, R30, R32) -/

theorem State.memoryOk_of_eq {s t : State} (hs : s.memoryOk) (hm : t.mem = s.mem) (hc : t.cfg = s.cfg) :
    t.memoryOk := by
  simpa only [State.memoryOk, State.memSize, hm, hc] using hs

theorem State.stackOk_of_sameStack {s t : State} (hs : s.stackOk) (h : SameStack s t)
    (hc : t.cfg = s.cfg) : t.stackOk := by
  simpa only [State.stackOk, h.1, h.2, hc] using hs

/-- The status invariant of a CORE that is not stopped says that it runs with code `NONE`. -/
theorem State.running_of_not_stopped {s : State} (hr : s.stopped = false) (hs : s.statusOk) :
    s.halted = false ∧ s.code = .noFault ∧ s.hostTerminated = false := by
  obtain ⟨hh, ht⟩ := Bool.or_eq_false_iff.mp hr
  refine ⟨hh, by_contra fun hc => ?_, ht⟩
  rw [hs.1 hc] at hh
  cases hh

theorem Effect.memoryOk {i : Instr} {s t : State} (h : Effect s i t) (hs : s.memoryOk) :
    t.memoryOk := by
  rcases h.mem_cases with hm | ⟨a, b, rfl⟩
  · exact State.memoryOk_of_eq hs hm h.cfg_eq
  · exact State.memoryOk_memWrite hs a b

/-- A CALL pushes below the capacity only, and a RET only pops. -/
theorem Effect.stackOk {i : Instr} {s t : State} (h : Effect s i t) (hs : s.stackOk) : t.stackOk := by
  rcases h.stack_cases with hst | ⟨b, -, hf, rfl⟩ | ⟨-, -, rfl⟩
  · exact State.stackOk_of_sameStack hs hst h.cfg_eq
  · obtain ⟨hpos, hlen, -⟩ := hs
    have hroom : s.depth < s.cfg.stackDepth := by simpa [State.stackFull] using hf
    exact ⟨hpos, (List.length_set ..).trans hlen, hroom⟩
  · obtain ⟨hpos, hlen, hdepth⟩ := hs
    exact ⟨hpos, hlen, (Nat.sub_le s.depth 1).trans hdepth⟩

/-- From a CORE that runs, a recorded code comes with the halt, and the host ends the run only without
one. -/
theorem Effect.statusOk {i : Instr} {s t : State} (h : Effect s i t) (hr : s.stopped = false)
    (hs : s.statusOk) : t.statusOk := by
  obtain ⟨hhalted, hcode, hterm⟩ := State.running_of_not_stopped hr hs
  rcases h.status_cases with ⟨h1, h2, h3⟩ | ⟨-, rfl⟩ | ⟨h1, -, h3⟩ | ⟨-, h1, h2, -⟩
  · simp [State.statusOk, h2, h3, hcode, hterm]
  · simp [State.statusOk, hcode, hterm]
  · simp [State.statusOk, h1, h3, hterm]
  · simp [State.statusOk, h1, h2, hcode, hhalted]

/-- An instruction of a running CORE keeps the invariant. -/
theorem exec_keeps_inv {i : Instr} {s t : State} (hr : s.stopped = false) (hs : s.Inv)
    (h : exec i s = .next t) : t.Inv := by
  obtain ⟨hm, hst, hok⟩ := hs
  have he := exec_effect h
  exact ⟨he.memoryOk hm, he.stackOk hst, he.statusOk hr hok⟩

theorem State.Inv.fetched {s : State} (hs : s.Inv) (k : Nat) : (s.fetched k).Inv := hs

/-- A fault of the decode phase on a running CORE keeps the invariant. -/
theorem raiseFault_keeps_inv {s : State} (hr : s.stopped = false) (hs : s.Inv) (c : StatusCode) :
    (raiseFault c s).Inv := by
  obtain ⟨hm, hst, hok⟩ := hs
  obtain ⟨-, -, hterm⟩ := State.running_of_not_stopped hr hok
  exact ⟨hm, hst, by simp [State.statusOk, hterm]⟩

/-- Settles O3: a STEP is idle, or moves the PC and then runs one effect or faults; each part of the
invariant is kept by every effect of a running CORE. -/
theorem stepKeepsInvariant : Obligations.StepKeepsInvariant := by
  intro s t hs h
  rcases step_cases s with ⟨-, e⟩ | ⟨hr, i, e, -⟩ | ⟨hr, c, k, -, e⟩ <;> rw [e] at h
  · cases h; exact hs
  · exact exec_keeps_inv (s := s.fetched _) hr (hs.fetched _) h
  · cases h; exact raiseFault_keeps_inv (s := s.fetched k) hr (hs.fetched k) c

/-! ## The control commands (rules R230 to R232) -/

theorem bufferLog2_some {n : Nat} {k : Fin 33} (h : bufferLog2 n = some k) : 2 ^ k.val = n := by
  simpa using List.find?_some h

theorem State.statusOk_of_cleared {s : State} (hc : s.code = .noFault) (ht : s.hostTerminated = false) :
    s.statusOk := by
  simp [State.statusOk, hc, ht]

theorem cmdInit_keeps_inv {s t : State} {buffer : List Byte} (hs : s.Inv)
    (h : cmdInit buffer s = .next t) : t.Inv := by
  obtain ⟨-, ⟨hpos, -, -⟩, -⟩ := hs
  unfold cmdInit at h
  split at h
  · cases h
  · rename_i k hk
    cases h
    have hsize : 0 + buffer.length ≤ 2 ^ k.val := by rw [bufferLog2_some hk, Nat.zero_add]
    exact State.initial_inv (cfg := { s.cfg with memLog2 := k }) hpos
      (Memory.wf_writeBytes ⟨.nil, nofun⟩ 0 buffer) (Memory.bounded_writeBytes nofun hsize)

theorem cmdLoad_keeps_inv {s t : State} {bytes : List Byte} (hs : s.Inv)
    (h : cmdLoad bytes s = .next t) : t.Inv := by
  cases h
  obtain ⟨⟨hwf, hbound⟩, hst, -⟩ := hs
  have hfit : 0 + (bytes.take s.memSize).length ≤ s.memSize := by simp
  exact ⟨⟨Memory.wf_writeBytes hwf 0 _, Memory.bounded_writeBytes hbound hfit⟩, hst,
    State.statusOk_of_cleared rfl rfl⟩

theorem cmdReset_keeps_inv {s t : State} (hs : s.Inv) (h : cmdReset s = .next t) : t.Inv := by
  cases h
  obtain ⟨hm, ⟨hpos, hlen, -⟩, -⟩ := hs
  exact ⟨hm, ⟨hpos, hlen, Nat.zero_le _⟩, State.statusOk_of_cleared rfl rfl⟩

/-- Settles O4: the buffer or the program is written byte by byte inside memory, and each command leaves
the status clear and the stack within its capacity. -/
theorem controlCommandsKeepInvariant : Obligations.ControlCommandsKeepInvariant := by
  rintro s t bytes hs (h | h | h)
  · exact cmdInit_keeps_inv hs h
  · exact cmdLoad_keeps_inv hs h
  · exact cmdReset_keeps_inv hs h

/-! ## Who writes the status (rule R29) -/

/-- Settles O51: the four things an instruction can do to the status, from a CORE that runs with code
`NONE`. -/
theorem onlyHaltAndFaultsWriteStatus : Obligations.OnlyHaltAndFaultsWriteStatus := by
  intro i s t h hhalted hcode
  rcases (exec_effect h).status_cases with ⟨h1, h2, -⟩ | ⟨hi, rfl⟩ | ⟨h1, h2, -⟩ | ⟨-, h1, h2, -⟩
  · exact .inl ⟨h1.trans hhalted, h2.trans hcode⟩
  · exact .inr (.inl ⟨hi, rfl, hcode⟩)
  · exact .inr (.inr ⟨h1, h2⟩)
  · exact .inl ⟨h1.trans hhalted, h2.trans hcode⟩

end Sys2Proof.Machine

/-! ## States that differ only where an instruction does not look

A relation between states that every operation of a meaning keeps is kept by the meaning. It stands for
two states that differ in the call stack alone, in the port bank alone, in the status alone, or in the
dead call-stack entries alone. -/

namespace Sys2Proof.Machine

/-- Two outcomes that end the same way, in related states if in states at all. -/
inductive SameEnd (R : State → State → Prop) :
    Host.Outcome State Fault Refusal → Host.Outcome State Fault Refusal → Prop
  | next {s u : State} (h : R s u) : SameEnd R (.next s) (.next u)
  | fault (f : Fault) : SameEnd R (.fault f) (.fault f)
  | refused (r : Refusal) : SameEnd R (.refused r) (.refused r)

/-- Related states agree on registers, memory and configuration, and the operations on registers,
memory and status keep them related. -/
structure Congruent (R : State → State → Prop) : Prop where
  regs {s u : State} : R s u → u.regs = s.regs
  mem {s u : State} : R s u → u.mem = s.mem
  cfg {s u : State} : R s u → u.cfg = s.cfg
  setReg {s u : State} (r : Fin 128) (v : Word) : R s u → R (s.setReg r v) (u.setReg r v)
  memWrite {s u : State} (a : Word) (b : Byte) : R s u → R (s.memWrite a b) (u.memWrite a b)
  raiseFault {s u : State} (c : StatusCode) : R s u → R (raiseFault c s) (raiseFault c u)
  halt {s u : State} : R s u → R s.halt u.halt

/-- Related states agree on the depth and the live entries, and stay related by a push and a pop. -/
structure StackCongruent (R : State → State → Prop) : Prop where
  depth {s u : State} : R s u → u.depth = s.depth
  stackEntry {s u : State} {k : Nat} : R s u → k < s.depth → u.stackEntry k = s.stackEntry k
  push {s u : State} (v : Word) : R s u → R (s.push v) (u.push v)
  pop {s u : State} : R s u → R s.pop u.pop

/-- Related states agree on the ports and the host, and stay related by what a hook call does. -/
structure PortCongruent (R : State → State → Prop) : Prop where
  ports {s u : State} : R s u → u.ports = s.ports
  hookCalls {s u : State} : R s u → u.hookCalls = s.hookCalls
  hostAnswers {s u : State} : R s u → u.hostAnswers = s.hostAnswers
  setPort {s u : State} (q : Byte) (v : Word) : R s u → R (s.setPort q v) (u.setPort q v)
  setPorts {s u : State} (bank : Ports) : R s u → R (s.setPorts bank) (u.setPorts bank)
  afterCall {s u : State} (k : HookKind) (q : Byte) : R s u → R (s.afterCall k q) (u.afterCall k q)
  terminate {s u : State} : R s u → R s.terminate u.terminate

/-! ### What related states agree on -/

section Reads
variable {R : State → State → Prop} {s u : State}

theorem Congruent.getReg (hR : Congruent R) (h : R s u) (r : Fin 128) : u.getReg r = s.getReg r := by
  simp only [State.getReg, hR.regs h]

theorem Congruent.memSize (hR : Congruent R) (h : R s u) : u.memSize = s.memSize := by
  simp only [State.memSize, hR.cfg h]

theorem Congruent.memRead (hR : Congruent R) (h : R s u) (a : Word) : u.memRead a = s.memRead a := by
  simp only [State.memRead, State.wrap, hR.mem h, hR.memSize h]

theorem Congruent.scan (hR : Congruent R) (h : R s u) (k : Nat) (l : Byte) : u.scan k l = s.scan k l := by
  simp only [State.scan, hR.mem h, hR.memSize h]

theorem StackCongruent.stackFull (hS : StackCongruent R) (hR : Congruent R) (h : R s u) :
    u.stackFull = s.stackFull := by
  simp only [State.stackFull, hR.cfg h, hS.depth h]

theorem PortCongruent.getPort (hP : PortCongruent R) (h : R s u) (q : Byte) :
    u.getPort q = s.getPort q := by
  simp only [State.getPort, hP.ports h]

theorem PortCongruent.hookAnswer (hP : PortCongruent R) (h : R s u) (k : HookKind) (q : Byte) :
    u.hookAnswer (u.callsAfter k q) = s.hookAnswer (s.callsAfter k q) := by
  simp only [State.hookAnswer, State.callsAfter, hP.ports h, hP.hookCalls h, hP.hostAnswers h]

end Reads

/-! ### The decode phase reads the PC and memory only -/

/-- `Fetch()` as a source over the PC alone, in a memory that stays as it is. -/
def fetchAt (m : Memory) (size : Nat) (pc : Word) : Option (Byte × Word) :=
  if size ≤ pc.toNat then none else some (m.read pc.toNat, pc + 1)

theorem fetch_setPc (s : State) (pc : Word) :
    fetch (s.setPc pc) = (fetchAt s.mem s.memSize pc).map fun p => (p.1, s.setPc p.2) := by
  by_cases h : s.memSize ≤ pc.toNat <;> simp [fetch, fetchAt, h]

/-- A decode from a state is the decode over the PC alone, written into the state. -/
theorem decodeFrom_fetch_eq (s : State) :
    decodeFrom fetch s = (decodeFrom (fetchAt s.mem s.memSize) s.pc).map s.setPc := by
  have hself : s.setPc s.pc = s := by simp
  conv_lhs => rw [← hself]
  exact decodeFrom_map (fetch_setPc s) s.pc

/-- Two ends of the decode phase that are alike, in related states. -/
inductive SameFetched (R : State → State → Prop) : Fetched → Fetched → Prop
  | ready (i : Instr) {s u : State} (h : R s u) : SameFetched R (.ready i s) (.ready i u)
  | faulted {s u : State} (h : R s u) : SameFetched R (.faulted s) (.faulted u)

section Congruence
variable {R : State → State → Prop} {s u : State}

theorem Congruent.fetchInstr (hR : Congruent R) (h : R s u) :
    SameFetched R (fetchInstr s) (fetchInstr u) := by
  have hpc : u.pc = s.pc := hR.getReg h pcReg
  unfold Machine.fetchInstr
  rw [decodeFrom_fetch_eq s, decodeFrom_fetch_eq u, hR.mem h, hR.memSize h, hpc]
  cases decodeFrom (fetchAt s.mem s.memSize) s.pc with
  | ok i pc => exact .ready i (hR.setReg pcReg pc h)
  | truncated pc => exact .faulted (hR.raiseFault _ (hR.setReg pcReg pc h))
  | invalidOpcode pc => exact .faulted (hR.raiseFault _ (hR.setReg pcReg pc h))
  | invalidMode pc => exact .faulted (hR.raiseFault _ (hR.setReg pcReg pc h))

theorem Congruent.skipOne (hR : Congruent R) (h : R s u) : R (skipOne s) (skipOne u) := by
  have hf := hR.fetchInstr h
  unfold Machine.skipOne
  generalize Machine.fetchInstr s = a, Machine.fetchInstr u = b at hf
  cases hf with
  | ready i h' => exact h'
  | faulted h' => exact h'

/-! ### The shared operations -/

theorem Congruent.x (hR : Congruent R) (h : R s u) (b : Byte) : u.x b = s.x b := hR.getReg h (reg b)

/-- The same write of a register. -/
theorem Congruent.setX (hR : Congruent R) (h : R s u) (d : Byte) {v w : Word} (e : w = v) :
    SameEnd R (.next (s.setX d v)) (.next (u.setX d w)) := by
  subst e
  exact .next (hR.setReg _ _ h)

theorem Congruent.threeReg (hR : Congruent R) (h : R s u) (f : Word → Word → Word) (d a b : Byte) :
    SameEnd R (threeReg f d a b s) (threeReg f d a b u) :=
  hR.setX h d (by rw [hR.x h, hR.x h])

theorem Congruent.divisionReg (hR : Congruent R) (h : R s u) (f : Word → Word → Word) (d a b : Byte) :
    SameEnd R (divisionReg f d a b s) (divisionReg f d a b u) := by
  unfold Machine.divisionReg
  rw [hR.x h]
  split
  · exact .next (hR.raiseFault _ h)
  · exact hR.threeReg h f d a b

theorem Congruent.loadDigit (hR : Congruent R) (h : R s u) (d : Byte) (digit : Option Word) :
    SameEnd R (loadDigit d digit s) (loadDigit d digit u) := by
  cases digit with
  | some v => exact hR.setX h d rfl
  | none => exact .next (hR.raiseFault _ h)

theorem PortCongruent.callHook (hP : PortCongruent R) (h : R s u) (kind : HookKind) (q : Byte)
    {k : State → Host.Outcome State Fault Refusal}
    (hk : ∀ s' u', R s' u' → SameEnd R (k s') (k u')) :
    SameEnd R (callHook kind q s k) (callHook kind q u k) := by
  unfold Machine.callHook
  rw [hP.hookAnswer h]
  split
  · exact hk _ _ (hP.setPorts _ (hP.afterCall _ _ h))
  · exact .next (hP.terminate (hP.afterCall _ _ h))
  · exact .fault _
  · exact .refused _

/-! ### The meanings -/

theorem Congruent.execBr (hR : Congruent R) (h : R s u) (c a b t : Byte) :
    SameEnd R (execBr c a b t s) (execBr c a b t u) := by
  unfold Machine.execBr
  rw [hR.x h, hR.x h, hR.x h]
  split
  · exact .next (hR.raiseFault _ h)
  · exact .next (hR.setReg _ _ h)
  · exact .next h

theorem Congruent.execSkip (hR : Congruent R) (h : R s u) (c a b : Byte) :
    SameEnd R (execSkip c a b s) (execSkip c a b u) := by
  unfold Machine.execSkip
  rw [hR.x h, hR.x h]
  split
  · exact .next (hR.raiseFault _ h)
  · exact .next h
  · exact .next (hR.skipOne h)

theorem Congruent.execBlk (hR : Congruent R) (h : R s u) (l : Byte) :
    SameEnd R (execBlk l s) (execBlk l u) := by
  have hpc : u.pc = s.pc := hR.getReg h pcReg
  unfold Machine.execBlk
  rw [hpc, hR.scan h]
  split
  · exact .next (hR.raiseFault _ (hR.setReg _ _ h))
  · exact .next (hR.setReg _ _ (hR.setReg _ _ h))

theorem Congruent.execSt (hR : Congruent R) (h : R s u) (a v : Byte) :
    SameEnd R (execSt a v s) (execSt a v u) := by
  unfold Machine.execSt
  rw [hR.x h, hR.x h]
  exact .next (hR.memWrite _ _ h)

theorem StackCongruent.execCall (hS : StackCongruent R) (hR : Congruent R) (h : R s u) (t : Byte) :
    SameEnd R (execCall t s) (execCall t u) := by
  have hpc : u.pc = s.pc := hR.getReg h pcReg
  unfold Machine.execCall
  rw [hS.stackFull hR h, hR.x h, hpc]
  split
  · exact .next (hR.raiseFault _ h)
  · exact .next (hR.setReg _ _ (hS.push _ h))

theorem StackCongruent.execRet (hS : StackCongruent R) (hR : Congruent R) (h : R s u) :
    SameEnd R (execRet s) (execRet u) := by
  unfold Machine.execRet
  rw [hS.depth h]
  split
  · exact .next (hR.raiseFault _ h)
  · have htop : u.stackEntry (s.depth - 1) = s.stackEntry (s.depth - 1) := hS.stackEntry h (by omega)
    rw [htop]
    exact .next (hR.setReg _ _ (hS.pop h))

theorem PortCongruent.readPort (hP : PortCongruent R) (hR : Congruent R) (h : R s u) (d q : Byte) :
    SameEnd R (readPort d q s) (readPort d q u) :=
  hR.setX h d (hP.getPort h q)

theorem PortCongruent.execIn (hP : PortCongruent R) (hR : Congruent R) (h : R s u) (d p : Byte) :
    SameEnd R (execIn d p s) (execIn d p u) := by
  unfold Machine.execIn
  rw [State.portIndex, State.portIndex, hR.x h, hR.cfg h]
  split
  · exact hP.callHook h _ _ fun _ _ h' => hP.readPort hR h' d _
  · exact hP.readPort hR h d _

theorem PortCongruent.execOut (hP : PortCongruent R) (hR : Congruent R) (h : R s u) (p v : Byte) :
    SameEnd R (execOut p v s) (execOut p v u) := by
  unfold Machine.execOut
  rw [State.portIndex, State.portIndex, hR.x h, hR.x h, hR.cfg h]
  split
  · exact hP.callHook (hP.setPort _ _ h) _ _ fun _ _ h' => .next h'
  · exact .next (hP.setPort _ _ h)

/-- Every instruction does the same from related states, if the relation suits the state it reaches:
the call stack for CALL and RET, the ports and the host for IN and OUT. -/
theorem Congruent.exec (hR : Congruent R) (i : Instr) (hS : IsStackAccess i → StackCongruent R)
    (hP : IsPortAccess i → PortCongruent R) (h : R s u) : SameEnd R (exec i s) (exec i u) := by
  cases i
  case halt => exact .next (hR.halt h)
  case nopHt | nopLf | nopVt | nopFf | nopCr | nopSp | endMark => exact .next h
  case add | sub | mul | and | or | xor | shl | shr => exact hR.threeReg h _ _ _ _
  case div | mod => exact hR.divisionReg h _ _ _ _
  case liD | liX => exact hR.loadDigit h _ _
  case liR | liW => exact hR.setX h _ rfl
  case liM d v => exact hR.setX h d (hR.x h v)
  case liI d v => exact hR.setX h d (by rw [State.indirect, State.indirect, hR.x h, hR.memRead h, hR.x h])
  case not d a => exact hR.setX h d (by rw [hR.x h])
  case label d => exact hR.setX h d (hR.getReg h pcReg)
  case ld d a => exact hR.setX h d (by rw [hR.x h, hR.memRead h])
  case jmp t => exact hR.setX h 0x2E (hR.x h t)
  case st a v => exact hR.execSt h a v
  case br c a b t => exact hR.execBr h c a b t
  case skip c a b => exact hR.execSkip h c a b
  case blk l => exact hR.execBlk h l
  case call t => exact (hS (.inl ⟨t, rfl⟩)).execCall hR h t
  case ret => exact (hS (.inr rfl)).execRet hR h
  case inp d p => exact (hP (.inl ⟨d, p, rfl⟩)).execIn hR h d p
  case out p v => exact (hP (.inr ⟨p, v, rfl⟩)).execOut hR h p v

/-- A STEP does the same from related states that are stopped or not alike. -/
theorem Congruent.step (hR : Congruent R) (hS : StackCongruent R) (hP : PortCongruent R)
    (hstop : u.stopped = s.stopped) (h : R s u) : SameEnd R (step s) (step u) := by
  unfold Machine.step
  rw [hstop]
  split
  · exact .next h
  · have hf := hR.fetchInstr h
    generalize Machine.fetchInstr s = a, Machine.fetchInstr u = b at hf
    cases hf with
    | ready i h' => exact hR.exec i (fun _ => hS) (fun _ => hP) h'
    | faulted h' => exact .next h'

end Congruence

theorem SameEnd.next_of_next {R : State → State → Prop} {s : State}
    {o : Host.Outcome State Fault Refusal} (h : SameEnd R (.next s) o) :
    ∃ u, o = .next u ∧ R s u := by
  cases h with
  | next h => exact ⟨_, rfl, h⟩

theorem SameEnd.fault_of_fault {R : State → State → Prop} {f : Fault}
    {o : Host.Outcome State Fault Refusal} (h : SameEnd R (.fault f) o) : o = .fault f := by
  cases h with
  | fault => rfl

theorem SameEnd.refused_of_refused {R : State → State → Prop} {r : Refusal}
    {o : Host.Outcome State Fault Refusal} (h : SameEnd R (.refused r) o) : o = .refused r := by
  cases h with
  | refused => rfl

/-! ## Only CALL and RET reach the call stack (rules R30, R33) -/

/-- `u` is `s` with this call stack. -/
def HasStack (stack : List Word) (depth : Nat) (s u : State) : Prop :=
  u = { s with stack := stack, depth := depth }

theorem HasStack.congruent (stack : List Word) (depth : Nat) : Congruent (HasStack stack depth) := by
  constructor <;> (intros; subst_vars; rfl)

theorem HasStack.portCongruent (stack : List Word) (depth : Nat) :
    PortCongruent (HasStack stack depth) := by
  constructor <;> (intros; subst_vars; rfl)

/-- Settles O49: no effect but those of CALL and RET writes the stack, and every other meaning keeps the
relation to the state with another stack. -/
theorem onlyCallAndRetTouchStack : Obligations.OnlyCallAndRetTouchStack := by
  intro i s t h hcall hret
  have hi := not_isStackAccess hcall hret
  refine ⟨?_, fun stack depth => ?_⟩
  · rcases (exec_effect h).stack_cases with hsame | ⟨b, e, -⟩ | ⟨e, -⟩
    · exact hsame
    · exact absurd e (hcall b)
    · exact absurd e hret
  · have hend := (HasStack.congruent stack depth).exec (s := s) i (fun hc => absurd hc hi)
      (fun _ => HasStack.portCongruent stack depth) rfl
    rw [h] at hend
    obtain ⟨u, hu, rfl⟩ := hend.next_of_next
    exact hu

/-! ## Only IN and OUT reach the ports and the host (rules R31, R144, R145, R214) -/

/-- `u` is `s` with this port bank. -/
def HasPorts (bank : Ports) (s u : State) : Prop := u = { s with ports := bank }

theorem HasPorts.congruent (bank : Ports) : Congruent (HasPorts bank) := by
  constructor <;> (intros; subst_vars; rfl)

theorem HasPorts.stackCongruent (bank : Ports) : StackCongruent (HasPorts bank) := by
  constructor <;> (intros; subst_vars; rfl)

/-- Only a hook that ends the run writes host termination. -/
theorem Effect.hostTerminated_eq {i : Instr} {s t : State} (h : Effect s i t) (hi : ¬ IsPortAccess i) :
    t.hostTerminated = s.hostTerminated := by
  rcases h.status_cases with ⟨-, -, e⟩ | ⟨-, rfl⟩ | ⟨-, -, e⟩ | ⟨hp, -⟩
  · exact e
  · rfl
  · exact e
  · exact absurd hp hi

/-- Settles O50: no effect but those of IN and OUT writes the ports, calls a hook or ends the run, and
every other meaning keeps the relation to the state with another port bank. -/
theorem onlyPortInstructionsTouchPorts : Obligations.OnlyPortInstructionsTouchPorts := by
  intro i s t h hin hout
  have hi := not_isPortAccess hin hout
  have he := exec_effect h
  refine ⟨he.samePorts hi, he.hostTerminated_eq hi, fun bank => ?_⟩
  have hend := (HasPorts.congruent bank).exec (s := s) i (fun _ => HasPorts.stackCongruent bank)
    (fun hp => absurd hp hi) rfl
  rw [h] at hend
  obtain ⟨u, hu, rfl⟩ := hend.next_of_next
  exact hu

/-! ## No instruction reads the status (rule R29) -/

/-- `u` is `s` but for the halted flag and the code. -/
def SameButStatus (s u : State) : Prop := ∃ h c, u = { s with halted := h, code := c }

theorem SameButStatus.congruent : Congruent SameButStatus where
  regs := by rintro s _ ⟨h, c, rfl⟩; rfl
  mem := by rintro s _ ⟨h, c, rfl⟩; rfl
  cfg := by rintro s _ ⟨h, c, rfl⟩; rfl
  setReg r v := by rintro ⟨h, c, rfl⟩; exact ⟨h, c, rfl⟩
  memWrite a b := by rintro ⟨h, c, rfl⟩; exact ⟨h, c, rfl⟩
  raiseFault code := by rintro ⟨h, c, rfl⟩; exact ⟨true, code, rfl⟩
  halt := by rintro s _ ⟨h, c, rfl⟩; exact ⟨true, c, rfl⟩

theorem SameButStatus.stackCongruent : StackCongruent SameButStatus where
  depth := by rintro s _ ⟨h, c, rfl⟩; rfl
  stackEntry := by rintro s _ k ⟨h, c, rfl⟩ _; rfl
  push v := by rintro ⟨h, c, rfl⟩; exact ⟨h, c, rfl⟩
  pop := by rintro s _ ⟨h, c, rfl⟩; exact ⟨h, c, rfl⟩

theorem SameButStatus.portCongruent : PortCongruent SameButStatus where
  ports := by rintro s _ ⟨h, c, rfl⟩; rfl
  hookCalls := by rintro s _ ⟨h, c, rfl⟩; rfl
  hostAnswers := by rintro s _ ⟨h, c, rfl⟩; rfl
  setPort q v := by rintro ⟨h, c, rfl⟩; exact ⟨h, c, rfl⟩
  setPorts bank := by rintro ⟨h, c, rfl⟩; exact ⟨h, c, rfl⟩
  afterCall k q := by rintro ⟨h, c, rfl⟩; exact ⟨h, c, rfl⟩
  terminate := by rintro s _ ⟨h, c, rfl⟩; exact ⟨h, c, rfl⟩

/-- Settles O52: every meaning keeps the relation between states that differ in the status only. -/
theorem statusIsNotReadable : Obligations.StatusIsNotReadable := by
  intro i s t h c ht
  have hend := SameButStatus.congruent.exec (s := s) i (fun _ => SameButStatus.stackCongruent)
    (fun _ => SameButStatus.portCongruent) ⟨h, c, rfl⟩
  rw [ht] at hend
  obtain ⟨u, hu, h', c', rfl⟩ := hend.next_of_next
  exact ⟨h', c', hu⟩

/-! ## The dead call-stack entries (rule R33) -/

/-- `u` is `s` with another list of entries, of the same length and with the same live ones. -/
theorem sameButDeadStack_iff {s u : State} :
    SameButDeadStack s u ↔ ∃ stack : List Word, u = { s with stack := stack } ∧
      stack.length = s.stack.length ∧ ∀ k, k < s.depth → stack.getD k 0 = s.stackEntry k := by
  constructor
  · rintro ⟨he, hlen, hlive⟩
    exact ⟨u.stack, he, hlen, hlive⟩
  · rintro ⟨stack, rfl, hlen, hlive⟩
    exact ⟨rfl, hlen, hlive⟩

/-- An operation that neither reads the entries nor writes the stack keeps the relation. -/
theorem SameButDeadStack.map (f : State → State)
    (hf : ∀ (s : State) (stack : List Word), f { s with stack := stack } = { f s with stack := stack })
    (hstack : ∀ s, SameStack s (f s)) {s u : State} (h : SameButDeadStack s u) :
    SameButDeadStack (f s) (f u) := by
  obtain ⟨stack, rfl, hlen, hlive⟩ := sameButDeadStack_iff.mp h
  obtain ⟨hst, hd⟩ := hstack s
  refine sameButDeadStack_iff.mpr ⟨stack, hf s stack, by rw [hst, hlen], fun k hk => ?_⟩
  rw [hlive k (hd ▸ hk), State.stackEntry, State.stackEntry, hst]

/-- A push turns the first dead entry into a live one, the same in both. -/
theorem SameButDeadStack.push {s u : State} (v : Word) (h : SameButDeadStack s u) :
    SameButDeadStack (s.push v) (u.push v) := by
  obtain ⟨stack, rfl, hlen, hlive⟩ := sameButDeadStack_iff.mp h
  refine sameButDeadStack_iff.mpr ⟨stack.set s.depth v, rfl, by simp [hlen], fun k hk => ?_⟩
  by_cases hks : k < s.depth
  · have hne : s.depth ≠ k := by omega
    simpa [State.stackEntry, hne] using hlive k hks
  · obtain rfl : k = s.depth := by simp only [State.push_depth] at hk; omega
    simp [State.stackEntry, List.getElem?_set, hlen]

/-- A pop turns a live entry into a dead one. -/
theorem SameButDeadStack.pop {s u : State} (h : SameButDeadStack s u) :
    SameButDeadStack s.pop u.pop := by
  obtain ⟨stack, rfl, hlen, hlive⟩ := sameButDeadStack_iff.mp h
  refine sameButDeadStack_iff.mpr ⟨stack, rfl, hlen, fun k hk => hlive k ?_⟩
  exact Nat.lt_of_lt_of_le hk (Nat.sub_le s.depth 1)

theorem SameButDeadStack.congruent : Congruent SameButDeadStack where
  regs h := by rw [h.1]
  mem h := by rw [h.1]
  cfg h := by rw [h.1]
  setReg r v := .map (·.setReg r v) (fun _ _ => rfl) fun _ => ⟨rfl, rfl⟩
  memWrite a b := .map (·.memWrite a b) (fun _ _ => rfl) fun _ => ⟨rfl, rfl⟩
  raiseFault c := .map (Machine.raiseFault c) (fun _ _ => rfl) fun _ => ⟨rfl, rfl⟩
  halt := .map State.halt (fun _ _ => rfl) fun _ => ⟨rfl, rfl⟩

theorem SameButDeadStack.stackCongruent : StackCongruent SameButDeadStack where
  depth h := by rw [h.1]
  stackEntry := fun ⟨_, _, hlive⟩ hk => hlive _ hk
  push v := .push v
  pop := .pop

theorem SameButDeadStack.portCongruent : PortCongruent SameButDeadStack where
  ports h := by rw [h.1]
  hookCalls h := by rw [h.1]
  hostAnswers h := by rw [h.1]
  setPort q v := .map (·.setPort q v) (fun _ _ => rfl) fun _ => ⟨rfl, rfl⟩
  setPorts bank := .map (·.setPorts bank) (fun _ _ => rfl) fun _ => ⟨rfl, rfl⟩
  afterCall k q := .map (·.afterCall k q) (fun _ _ => rfl) fun _ => ⟨rfl, rfl⟩
  terminate := .map State.terminate (fun _ _ => rfl) fun _ => ⟨rfl, rfl⟩

theorem SameButDeadStack.stopped_eq {s u : State} (h : SameButDeadStack s u) : u.stopped = s.stopped := by
  rw [h.1]; rfl

/-- Settles O57: a STEP keeps the relation, because a CALL writes an entry before it is live and a RET
reads a live one. It holds of a stack of any length, so that the premise is not used. -/
theorem deadStackEntriesAreUnobservable : Obligations.DeadStackEntriesAreUnobservable := by
  intro s u _ h
  have hend := SameButDeadStack.congruent.step SameButDeadStack.stackCongruent
    SameButDeadStack.portCongruent h.stopped_eq h
  refine ⟨fun t ht => ?_, fun f hf => ?_, fun r hr => ?_⟩
  · rw [ht] at hend
    exact hend.next_of_next
  · rw [hf] at hend
    exact hend.fault_of_fault
  · rw [hr] at hend
    exact hend.refused_of_refused

/-! ## Register names (rule R21) -/

@[simp] theorem reg_lowName (b : Byte) : reg (lowName b) = reg b := by
  have hmask : b.toNat &&& 127 = b.toNat % 128 := Nat.and_two_pow_sub_one_eq_mod b.toNat 7
  simp [reg, lowName, hmask]

/-- A read and a write through an operand byte do not see its bit 7. -/
@[simp] theorem State.x_lowName (s : State) (b : Byte) : s.x (lowName b) = s.x b := by
  simp only [State.x, reg_lowName]

theorem State.setX_lowName (s : State) (d : Byte) (v : Word) : s.setX (lowName d) v = s.setX d v := by
  simp only [State.setX, reg_lowName]

@[simp] theorem State.indirect_lowName (s : State) (b : Byte) : s.indirect (lowName b) = s.indirect b := by
  simp only [State.indirect, State.x_lowName]

@[simp] theorem State.portIndex_lowName (s : State) (p : Byte) : s.portIndex (lowName p) = s.portIndex p := by
  simp only [State.portIndex, State.x_lowName]

theorem threeReg_lowNames (f : Word → Word → Word) (d a b : Byte) (s : State) :
    threeReg f (lowName d) (lowName a) (lowName b) s = threeReg f d a b s := by
  simp only [threeReg, State.setX_lowName, State.x_lowName]

theorem divisionReg_lowNames (f : Word → Word → Word) (d a b : Byte) (s : State) :
    divisionReg f (lowName d) (lowName a) (lowName b) s = divisionReg f d a b s := by
  simp only [divisionReg, threeReg_lowNames, State.x_lowName]

theorem loadDigit_lowName (d : Byte) (digit : Option Word) (s : State) :
    loadDigit (lowName d) digit s = loadDigit d digit s := by
  simp only [loadDigit, State.setX_lowName]

theorem readPort_lowName (d q : Byte) : readPort (lowName d) q = readPort d q := by
  funext s
  simp only [readPort, State.setX_lowName]

/-- Every operation reaches a register through `reg`, which does not see bit 7 of its name. -/
theorem exec_lowNames (i : Instr) (s : State) : exec (lowNames i) s = exec i s := by
  cases i
  case halt | nopHt | nopLf | nopVt | nopFf | nopCr | nopSp | ret | blk | endMark => rfl
  case add | sub | mul | and | or | xor | shl | shr => exact threeReg_lowNames _ _ _ _ s
  case div | mod => exact divisionReg_lowNames _ _ _ _ s
  case liD | liX => exact loadDigit_lowName _ _ s
  case liR | liW | label => exact congrArg _ (State.setX_lowName s _ _)
  case liM => simp only [lowNames, exec, execLiM, State.setX_lowName, State.x_lowName]
  case liI => simp only [lowNames, exec, execLiI, State.setX_lowName, State.indirect_lowName]
  case not => simp only [lowNames, exec, execNot, State.setX_lowName, State.x_lowName]
  case ld => simp only [lowNames, exec, execLd, State.setX_lowName, State.x_lowName]
  case st => simp only [lowNames, exec, execSt, State.x_lowName]
  case br => simp only [lowNames, exec, execBr, State.x_lowName]
  case skip => simp only [lowNames, exec, execSkip, State.x_lowName]
  case jmp => simp only [lowNames, exec, execJmp, State.x_lowName]
  case call => simp only [lowNames, exec, execCall, State.x_lowName]
  case inp => simp only [lowNames, exec, execIn, readPort_lowName, State.portIndex_lowName]
  case out => simp only [lowNames, exec, execOut, State.x_lowName, State.portIndex_lowName]

/-- Settles O55: `reg` is modulo 128 by definition, and every meaning goes through it. -/
theorem registerNamesWrapModulo128 : Obligations.RegisterNamesWrapModulo128 :=
  ⟨fun _ => rfl, exec_lowNames⟩

/-! ## The PC is a register (rules R24, R25) -/

/-- The bytes of an instruction at the PC of a running CORE are its STEP (rules R84, R85). -/
theorem step_of_bytesAt {s : State} {i : Instr} (hr : s.stopped = false) (hb : BytesAt s (encode i)) :
    step s = exec i (s.fetched (encode i).length) := by
  have hd : decodeFrom fetch s = .ok i (s.fetched (encode i).length) :=
    decodeFrom_of_takes (takes_of_bytesAt hb)
  simp only [step, hr, Bool.false_eq_true, if_false, fetchInstr, hd]

theorem onlyRegs_setReg (s : State) (r : Fin 128) (v : Word) : OnlyRegs [r] s (s.setReg r v) := by
  refine ⟨fun q hq => State.getReg_setReg_ne s r v ?_, fun _ => rfl, ⟨rfl, rfl⟩, ⟨rfl, rfl, rfl⟩,
    ⟨rfl, rfl, rfl⟩, rfl⟩
  exact List.ne_of_not_mem_cons hq

/-- The operand bytes that name the PC. -/
theorem reg_eq_pcReg_iff {b : Byte} : reg b = pcReg ↔ b.toNat % 128 = 0x2E := Fin.ext_iff

theorem State.x_of_pc_name {s : State} {b : Byte} (h : reg b = pcReg) : s.x b = s.pc := by
  simp [h]

/-- A write through a name of the PC is a jump, and a write through any other name is none. -/
theorem State.pc_setX (s : State) (b : Byte) (v : Word) :
    (s.setX b v).pc = if reg b = pcReg then v else s.pc := by
  by_cases h : reg b = pcReg
  · simp [h]
  · have h' : pcReg ≠ reg b := fun e => h e.symm
    simp [h, State.getReg_setReg_ne _ _ _ h']

/-- LI mode `m` at the PC (rule R125). -/
theorem step_liM {s : State} {d v : Byte} (hr : s.stopped = false)
    (hb : BytesAt s [0x23, d, 0x6D, v]) :
    step s = .next ((s.fetched 4).setX d ((s.fetched 4).x v)) :=
  step_of_bytesAt (i := .liM d v) hr hb

/-- What an instruction of `k` bytes reads from a register: the next address from the PC, and from any
other the value it had. -/
theorem State.fetched_x (s : State) (k : Nat) (v : Byte) :
    (s.fetched k).x v = if reg v = pcReg then s.pc + BitVec.ofNat 32 k else s.x v := by
  simp only [State.fetched, State.setPc_eq, State.x_eq, State.getReg_setReg]

/-- Settles O59: an instruction runs from the state whose PC is past its bytes, the PC is reached through
its register name alone, and LI mode `m` is one read and one write. -/
theorem pcReadsNextAddressAndJumpsWhenWritten : Obligations.PcReadsNextAddressAndJumpsWhenWritten := by
  refine ⟨fun s i hr hb => ?_, fun u b v => ⟨fun hpc => ?_, fun hpc => ?_⟩,
    fun s d v hr => ⟨fun hb => ?_, fun hb => ?_⟩⟩
  · exact ⟨_, step_of_bytesAt hr hb, State.fetched_pc s _, onlyRegs_setReg s pcReg _⟩
  · have h : reg b = pcReg := reg_eq_pcReg_iff.mpr hpc
    exact ⟨State.x_of_pc_name h, by rw [State.pc_setX, if_pos h]⟩
  · rw [State.pc_setX, if_neg (mt reg_eq_pcReg_iff.mp hpc)]
  · refine ⟨_, step_liM hr hb, ?_⟩
    have hnext : (s.fetched 4).x 0x2E = s.pc + 4 := State.fetched_x s 4 0x2E
    rw [hnext]
    exact State.getReg_setReg_self _ _ _
  · refine ⟨_, step_liM hr hb, ?_⟩
    have hpc : reg 0x2E = pcReg := rfl
    rw [State.pc_setX, if_pos hpc, State.fetched_x]
    rfl

end Sys2Proof.Machine

/-! PROOFS. Memory (spec 20_memory.md): the wraparound unit, what a load and a fetch read after a store,
and that no other instruction writes a byte. -/

namespace Sys2Proof.Machine

/-! ## The wraparound unit (rules R41, R42) -/

/-- Masking with `MEM_SIZE - 1` is reduction modulo `MEM_SIZE`, a power of two (rule R41). -/
theorem State.wrap_eq_mod (s : State) (a : Word) : s.wrap a = a.toNat % s.memSize :=
  Nat.and_two_pow_sub_one_eq_mod a.toNat s.cfg.memLog2.val

/-- Every word is an address of the largest memory (rule R42). -/
theorem State.wrap_eq_toNat {s : State} (h : s.cfg.memLog2 = 32) (a : Word) : s.wrap a = a.toNat := by
  have hsize : s.memSize = 2 ^ 32 := by rw [State.memSize, Config.memSize, h]; rfl
  rw [State.wrap_eq_mod, hsize, Nat.mod_eq_of_lt a.isLt]

/-- Settles O26: the mask of a power of two is a remainder, below `MEM_SIZE`, and the identity on words
when `MEM_SIZE` is 2^32. -/
theorem wrapIsModuloMemorySize : Obligations.WrapIsModuloMemorySize :=
  fun s a => ⟨s.wrap_eq_mod a, s.wrap_lt a, fun h => State.wrap_eq_toNat h a⟩

/-! ## Reading after a store (rules R46, R55, R238) -/

/-- What a load sees after a store: the stored byte at every address that wraps to the same place. -/
theorem State.memRead_memWrite {s : State} (h : s.memoryOk) (a : Word) (b : Byte) (c : Word) :
    (s.memWrite a b).memRead c = if s.wrap c = s.wrap a then b else s.memRead c :=
  State.read_memWrite h a b (s.wrap c)

/-- The PC at an address of memory: the byte there, and the PC past it (rules R80, R82). -/
theorem fetch_setPc_of_lt {s : State} {p : Word} (h : p.toNat < s.memSize) :
    fetch (s.setPc p) = some (s.mem.read p.toNat, s.setPc (p + 1)) := by
  rw [fetch_setPc, fetchAt, if_neg (Nat.not_le.mpr h), Option.map_some]

theorem zext_lowByte_toNat (v : Word) : (zext (lowByte v)).toNat = v.toNat % 256 := by
  have hlow : (lowByte v).toNat = v.toNat % 256 := BitVec.toNat_setWidth 8 v
  rw [zext, BitVec.toNat_setWidth, hlow]
  omega

/-- A byte's worth of a word comes back whole from a store and a load. -/
theorem zext_lowByte_of_lt {v : Word} (h : v.toNat < 256) : zext (lowByte v) = v := by
  apply BitVec.eq_of_toNat_eq
  rw [zext_lowByte_toNat, Nat.mod_eq_of_lt h]

/-- A register read back through the name it was written through. -/
theorem State.x_setX_self (s : State) (b : Byte) (v : Word) : (s.setX b v).x b = v :=
  State.getReg_setReg_self s (reg b) v

/-- A store leaves every register as it is (rule R141). -/
theorem State.memWrite_x (s : State) (a : Word) (b c : Byte) : (s.memWrite a b).x c = s.x c := rfl

/-- Settles O29: the store leaves the registers as they are, so the load reads the address that wraps to
where the store wrote. -/
theorem storeThenLoadReturnsStoredByte : Obligations.StoreThenLoadReturnsStoredByte := by
  intro s a v d e hs hwrap
  have hread : (s.memWrite (s.x a) (lowByte (s.x v))).memRead (s.x e) = lowByte (s.x v) := by
    rw [State.memRead_memWrite hs, if_pos hwrap]
  refine ⟨_, _, rfl, rfl, ?_, fun hlt => ?_⟩
  · rw [State.x_setX_self, State.memWrite_x, hread, zext_lowByte_toNat]
  · rw [State.x_setX_self, State.memWrite_x, hread, zext_lowByte_of_lt hlt]

/-- Settles O30: a fetch reads the memory that the store wrote, at an address below `MEM_SIZE` because it
is a wrapped one. -/
theorem storeIsSeenByTheNextFetch : Obligations.StoreIsSeenByTheNextFetch := by
  intro s a v p hs hp
  have hlt : p.toNat < (s.memWrite (s.x a) (lowByte (s.x v))).memSize := by
    rw [State.memWrite_memSize, hp]
    exact s.wrap_lt (s.x a)
  refine ⟨_, (s.memWrite (s.x a) (lowByte (s.x v))).setPc (p + 1), rfl, ?_,
    State.getReg_setReg_self _ pcReg _⟩
  rw [fetch_setPc_of_lt hlt, State.read_memWrite hs, if_pos hp, lowByte, BitVec.ofNat_toNat]

/-! ## Only ST writes memory (rules R45, R50, R141) -/

/-- The store is the one effect that writes memory, and it is an ST's. -/
theorem Effect.mem_eq {i : Instr} {s t : State} (h : Effect s i t) (hi : ∀ a v, i ≠ .st a v) :
    t.mem = s.mem := by
  cases h with
  | regs h => exact h.mem_eq
  | fault _ h _ => exact h.mem_eq
  | halt => rfl
  | store a v => exact absurd rfl (hi a v)
  | call b _ => rfl
  | ret _ => rfl
  | port _ h => rw [h]
  | terminated _ h => rw [h]

/-- Settles O48: every effect but the store keeps memory as it is, and so what every address reads. -/
theorem onlyStoresWriteMemory : Obligations.OnlyStoresWriteMemory :=
  fun _ _ _ h hi a => congrArg (·.read a) ((exec_effect h).mem_eq hi)

end Sys2Proof.Machine

/-! PROOFS. Encoding (spec 30_encoding.md): the decoder undoes the encoder and nothing else, the opcode
byte fixes the length except for LI, and the bytes that are no opcode halt the CORE. -/

namespace Sys2Proof

/-! ## Decoding a list of bytes (rules R60 to R67) -/

/-- Bytes taken from a list are its front, and what is left is the rest. -/
theorem takes_nextOfList_iff {bs as rest : List Byte} :
    Takes nextOfList bs as rest ↔ bs = as ++ rest := by
  constructor
  · intro h
    induction h with
    | nil s => rfl
    | @cons s u t b as h _ ih =>
      cases s with
      | nil => cases h
      | cons c cs => cases h; rw [ih, List.cons_append]
  · rintro rfl
    induction as with
    | nil => exact .nil rest
    | cons b as ih => exact .cons rfl ih

/-- What a decoder reads is what it took: the bytes the encoder lays out (rules R60 to R67). -/
theorem decodeFrom_eq_ok_iff {σ : Type} {next : σ → Option (Byte × σ)} {s t : σ} {i : Instr} :
    decodeFrom next s = .ok i t ↔ Takes next s (encode i) t := by
  refine ⟨fun h => ?_, decodeFrom_of_takes⟩
  have hsays := decodeFrom_says (next := next) s
  rwa [h] at hsays

/-- Settles O15: on any source the decoder takes exactly the encoder's bytes, and on a list the bytes
taken are its front. -/
theorem decodeAndEncodeAgree : Obligations.DecodeAndEncodeAgree :=
  fun _ _ _ => decodeFrom_eq_ok_iff.trans takes_nextOfList_iff

/-- Settles O17: each word is the encoding of its instruction with nothing after it. -/
theorem sampleWordsDecode : Obligations.SampleWordsDecode := by
  have hdecode {bs : List Byte} {i : Instr} (h : bs = encode i ++ []) : decode bs = .ok i [] :=
    (decodeAndEncodeAgree bs i []).mpr h
  exact ⟨hdecode rfl, hdecode rfl, hdecode rfl, hdecode rfl, hdecode rfl, hdecode rfl, hdecode rfl,
    hdecode rfl, hdecode rfl⟩

/-! ## Length (rules R61, R63, R67) -/

/-- The length of the instructions of a form, opcode byte included; LI has none of its own. -/
def Form.len : Form → Option Nat
  | .none0 _ => some 1
  | .one _ => some 2
  | .two _ => some 3
  | .three _ => some 4
  | .four _ => some 5
  | .immediate => none

/-- Every encoding begins with an opcode, whose form gives the length where it gives one. -/
theorem encode_head_form (i : Instr) :
    ∃ op f, (encode i).head? = some op ∧ opcodeForm op = some f ∧
      ∀ n, f.len = some n → (encode i).length = n := by
  cases i <;> exact ⟨_, _, rfl, rfl, by simp [Form.len, encode]⟩

/-- LI is the one opcode that does not fix a length (rule R61). -/
theorem exists_len_of_ne_li {op : Byte} {f : Form} (h : opcodeForm op = some f) (hop : op ≠ 0x23) :
    ∃ n, f.len = some n := by
  cases f with
  | immediate => exact absurd (opcodeForm_encodes h) hop
  | _ => exact ⟨_, rfl⟩

/-- The two shapes of an LI: mode `w` with four payload bytes, and the other modes with one. -/
theorem encode_of_head_li {i : Instr} (h : (encode i).head? = some 0x23) :
    (∃ d v0 v1 v2 v3, encode i = [0x23, d, 0x77, v0, v1, v2, v3]) ∨
      ∃ d m v, m ≠ 0x77 ∧ encode i = [0x23, d, m, v] := by
  cases i with
  | liW d v0 v1 v2 v3 => exact .inl ⟨d, v0, v1, v2, v3, rfl⟩
  | liD d v | liI d v | liM d v | liR d v | liX d v => exact .inr ⟨d, _, v, by decide, rfl⟩
  | _ => simp [encode] at h

/-- Settles O16: an opcode other than LI's has a form with a length, and the length of an LI is that of
one of its two shapes. -/
theorem opcodeFixesLengthExceptLi : Obligations.OpcodeFixesLengthExceptLi := by
  refine ⟨fun i j hij hli => ?_, fun i hli => ?_⟩
  · obtain ⟨op, f, hi, hf, hlen⟩ := encode_head_form i
    obtain ⟨op', f', hj, hf', hlen'⟩ := encode_head_form j
    obtain rfl : op = op' := Option.some.inj (hi.symm.trans (hij.trans hj))
    obtain rfl : f = f' := Option.some.inj (hf.symm.trans hf')
    obtain ⟨n, hn⟩ := exists_len_of_ne_li hf fun hop => hli (hop ▸ hi)
    rw [hlen n hn, hlen' n hn]
  · obtain ⟨d, v0, v1, v2, v3, he⟩ | ⟨d, m, v, hm, he⟩ := encode_of_head_li hli
    · rw [he]; rfl
    · rw [he]; exact (if_neg fun hmode => hm (Option.some.inj hmode)).symm

/-! ## Invalid opcodes (rules R69, R192) -/

/-- The ranges of rule R69 are the bytes that the opcode map leaves out, compared byte by byte. -/
theorem opcodeForm_eq_none_iff (op : Byte) : opcodeForm op = none ↔ Machine.IsInvalidOpcode op := by
  have hall : ∀ op : Byte, (opcodeForm op).isNone = true ↔
      ∃ r ∈ Machine.invalidOpcodeRanges, r.1 ≤ op.toNat ∧ op.toNat ≤ r.2 := by decide
  rw [← Option.isNone_iff_eq_none, hall op, Machine.IsInvalidOpcode]

/-- Every opcode of the map begins an encoding. -/
theorem exists_encode_head {op : Byte} {f : Form} (h : opcodeForm op = some f) :
    ∃ i, (encode i).head? = some op := by
  have he := opcodeForm_encodes h
  cases f with
  | none0 i => exact ⟨i, congrArg List.head? he⟩
  | one mk => exact ⟨mk 0, congrArg List.head? (he 0)⟩
  | two mk => exact ⟨mk 0 0, congrArg List.head? (he 0 0)⟩
  | three mk => exact ⟨mk 0 0 0, congrArg List.head? (he 0 0 0)⟩
  | four mk => exact ⟨mk 0 0 0 0, congrArg List.head? (he 0 0 0 0)⟩
  | immediate => exact ⟨.liD 0 0, congrArg some (Eq.symm he)⟩

/-- A byte that is no opcode ends a decode as soon as it is taken. -/
theorem decodeFrom_invalidOpcode {σ : Type} {next : σ → Option (Byte × σ)} {s t : σ} {op : Byte}
    (h : Takes next s [op] t) (hop : opcodeForm op = none) :
    decodeFrom next s = .invalidOpcode t := by
  obtain ⟨u, hu, ht⟩ := takes_cons_iff.mp h
  obtain rfl := takes_nil_iff.mp ht
  rw [decodeFrom, takeByte_some hu, hop]

end Sys2Proof

namespace Sys2Proof.Machine

/-- A fault of the decode phase writes the status and the PC, and no more (rules R86, R203). -/
theorem faultsWith_raiseFault_fetched (c : StatusCode) (s : State) (k : Nat) :
    FaultsWith c [pcReg] s (raiseFault c (s.fetched k)) := by
  refine ⟨fun r hr => ?_, fun _ => rfl, ⟨rfl, rfl⟩, ⟨rfl, rfl, rfl⟩, rfl, rfl, rfl, rfl⟩
  exact State.getReg_setReg_ne s pcReg _ (List.ne_of_not_mem_cons hr)

/-- A STEP at a byte that is no opcode fetches it and faults (rules R85, R192). -/
theorem step_of_invalidOpcode {s : State} {op : Byte} (hr : s.stopped = false)
    (hb : BytesAt s [op]) (hop : opcodeForm op = none) :
    step s = .next (raiseFault .invalidOpcode (s.fetched 1)) := by
  have hd : decodeFrom fetch s = .invalidOpcode (s.fetched 1) :=
    decodeFrom_invalidOpcode (takes_of_bytesAt hb) hop
  simp only [step, hr, Bool.false_eq_true, if_false, fetchInstr, hd]

/-- Settles O12: the invalid bytes are those the opcode map leaves out, which the decode phase refuses
once fetched, and those of the map are the first bytes of the encodings. -/
theorem invalidOpcodeByteFaults : Obligations.InvalidOpcodeByteFaults := by
  refine ⟨fun s op hr hb hop => ?_, fun op hop => ?_, fun i op hi hop => ?_⟩
  · exact ⟨_, step_of_invalidOpcode hr hb ((opcodeForm_eq_none_iff op).mpr hop), s.fetched_pc 1,
      faultsWith_raiseFault_fetched .invalidOpcode s 1⟩
  · rw [← opcodeForm_eq_none_iff] at hop
    obtain ⟨f, hf⟩ := Option.ne_none_iff_exists'.mp hop
    exact exists_encode_head hf
  · obtain ⟨op', f, hi', hf, -⟩ := encode_head_form i
    obtain rfl : op = op' := Option.some.inj (hi.symm.trans hi')
    rw [← opcodeForm_eq_none_iff, hf] at hop
    cases hop

end Sys2Proof.Machine

/-! PROOFS. Fetch and dispatch (spec 40_fetch_dispatch.md): the four ends of the decode phase and what a
STEP and a skip do at each, the ways an instruction and a run can end, and what a fault leaves as it
was. -/

namespace Sys2Proof

/-- The mode map gives a payload to each of the six modes of rule R67 and to no other byte. -/
theorem modePayload_eq_none {m : Byte} (h : ¬ Machine.IsMode m) : modePayload m = none := by
  have hall : ∀ m : Byte, (modePayload m).isNone = true ∨
      m = 0x72 ∨ m = 0x64 ∨ m = 0x78 ∨ m = 0x77 ∨ m = 0x6D ∨ m = 0x69 := by decide
  exact Option.isNone_iff_eq_none.mp ((hall m).resolve_right h)

/-- An LI whose mode byte is none ends a decode as soon as the mode is taken (rule R127). -/
theorem decodeFrom_invalidMode {σ : Type} {next : σ → Option (Byte × σ)} {s t : σ} {d m : Byte}
    (h : Takes next s [0x23, d, m] t) (hm : modePayload m = none) :
    decodeFrom next s = .invalidMode t := by
  obtain ⟨u, hu, h⟩ := takes_cons_iff.mp h
  obtain ⟨v, hv, h⟩ := takes_cons_iff.mp h
  obtain ⟨w, hw, h⟩ := takes_cons_iff.mp h
  obtain rfl := takes_nil_iff.mp h
  have hop : opcodeForm 0x23 = some .immediate := rfl
  simp only [decodeFrom, takeByte_some hu, hop, decodeOperands, decodeImmediate, takeByte_some hv,
    takeByte_some hw, hm]

end Sys2Proof

namespace Sys2Proof.Machine

/-! ## The fetch primitive (rules R80, R82) -/

/-- Settles O10: below the end of memory a fetch is the byte at the PC and one register write, of the PC
plus one; at or beyond it there is none. -/
theorem fetchReadsByteAndAdvancesPc : Obligations.FetchReadsByteAndAdvancesPc := by
  refine fun s => ⟨fun hlt => ⟨s.setPc (s.pc + 1), ?_, ?_, onlyRegs_setReg s pcReg _⟩, fun hge => ?_⟩
  · rw [fetch, if_neg (Nat.not_le.mpr hlt)]
  · have hpc : (s.setPc (s.pc + 1)).pc = s.pc + 1 := State.getReg_setReg_self s pcReg _
    rw [hpc, BitVec.toNat_add]
    rfl
  · rw [fetch, if_pos hge]

/-! ## The four ends of the decode phase (rules R85, R86) -/

section DecodePhase
variable {s : State}

theorem fetchInstr_of_bytesAt {i : Instr} (hb : BytesAt s (encode i)) :
    fetchInstr s = .ready i (s.fetched (encode i).length) := by
  rw [fetchInstr, decodeFrom_of_takes (takes_of_bytesAt hb)]

/-- The fetch that fails is the one at the first byte of the instruction beyond the end of memory. -/
theorem fetchInstr_of_outOfMemory {i : Instr} {k : Nat} (hk : k < (encode i).length)
    (hb : BytesAt s ((encode i).take k)) (ho : OutOfMemory s k) :
    fetchInstr s = .faulted (raiseFault .bounds (s.fetched k)) := by
  have htakes : Takes fetch s ((encode i).take k) (s.fetched k) := by
    simpa only [List.length_take_of_le hk.le] using takes_of_bytesAt hb
  have hfail : fetch (s.fetched k) = none := by
    rw [fetch_eq, State.fetched_ahead, State.fetched_memSize, Nat.add_zero]
    exact if_pos ho
  rw [fetchInstr, decodeFrom_truncated hk htakes hfail]

theorem fetchInstr_of_invalidOpcode {op : Byte} (hb : BytesAt s [op]) (hop : opcodeForm op = none) :
    fetchInstr s = .faulted (raiseFault .invalidOpcode (s.fetched 1)) := by
  have hd : decodeFrom fetch s = .invalidOpcode (s.fetched 1) :=
    decodeFrom_invalidOpcode (takes_of_bytesAt hb) hop
  rw [fetchInstr, hd]

theorem fetchInstr_of_invalidMode {d m : Byte} (hb : BytesAt s [0x23, d, m])
    (hm : modePayload m = none) :
    fetchInstr s = .faulted (raiseFault .invalidOpcode (s.fetched 3)) := by
  have hd : decodeFrom fetch s = .invalidMode (s.fetched 3) :=
    decodeFrom_invalidMode (takes_of_bytesAt hb) hm
  rw [fetchInstr, hd]

/-! ### What a skip makes of them (rule R90) -/

theorem skipOne_of_ready {i : Instr} {t : State} (h : fetchInstr s = .ready i t) : skipOne s = t := by
  rw [skipOne, h]

theorem skipOne_of_faulted {t : State} (h : fetchInstr s = .faulted t) : skipOne s = t := by
  rw [skipOne, h]

/-! ### What a STEP makes of them (rules R83, R84) -/

theorem step_of_stopped (h : s.stopped = true) : step s = .next s := by
  rw [step, if_pos h]

theorem step_of_faulted {t : State} (hr : s.stopped = false) (h : fetchInstr s = .faulted t) :
    step s = .next t := by
  rw [step, if_neg (Bool.eq_false_iff.mp hr), h]

end DecodePhase

/-- Every instruction is run from its bytes by a STEP, or faults at the first of them beyond memory. -/
theorem runsFromItsBytes (i : Instr) : RunsFromItsBytes i :=
  fun _ hr => ⟨step_of_bytesAt hr, fun _ hk hb ho =>
    step_of_faulted hr (fetchInstr_of_outOfMemory hk hb ho)⟩

/-- Settles O38: the skip takes the bytes the decode phase takes and keeps the state it ends in, at each
of its four ends. -/
theorem skipOneFetchesAndDiscards : Obligations.SkipOneFetchesAndDiscards := by
  refine fun s => ⟨fun i hb => ?_, fun i k hk hb ho => ?_, fun op hb hop => ?_, fun d m hb hm => ?_⟩
  · exact skipOne_of_ready (fetchInstr_of_bytesAt hb)
  · exact skipOne_of_faulted (fetchInstr_of_outOfMemory hk hb ho)
  · exact skipOne_of_faulted (fetchInstr_of_invalidOpcode hb ((opcodeForm_eq_none_iff op).mpr hop))
  · exact skipOne_of_faulted (fetchInstr_of_invalidMode hb (modePayload_eq_none hm))

/-- A fault that nothing was written before writes the status alone (rule R201). -/
theorem faultsWith_raiseFault (c : StatusCode) (s : State) : FaultsWith c [] s (raiseFault c s) :=
  ⟨fun _ _ => rfl, fun _ => rfl, ⟨rfl, rfl⟩, ⟨rfl, rfl, rfl⟩, rfl, rfl, rfl, rfl⟩

/-- Settles O11: byte `k` of an instruction is fetched from `k` places after the PC, where the fault leaves
the PC; the opcode byte is byte 0 of any instruction. -/
theorem failedFetchFaultsBounds : Obligations.FailedFetchFaultsBounds := by
  refine fun s hr => ⟨fun hout => ?_, fun i k hk hb ho => ?_⟩
  · have hopcode : OutOfMemory s 0 := by rwa [OutOfMemory, State.ahead_zero]
    refine ⟨raiseFault .bounds (s.fetched 0),
      (runsFromItsBytes .halt s hr).2 0 (by decide) nofun hopcode, ?_, ?_⟩
    · rw [State.fetched_zero]; rfl
    · rw [State.fetched_zero]; exact faultsWith_raiseFault .bounds s
  · have hpc : (raiseFault .bounds (s.fetched k)).pc.toNat = s.ahead k :=
      congrArg BitVec.toNat (s.fetched_pc k)
    exact ⟨_, (runsFromItsBytes i s hr).2 k hk hb ho, hpc, hpc ▸ ho,
      faultsWith_raiseFault_fetched .bounds s k⟩

/-- Settles O9: bytes that decode to an instruction with nothing left are the bytes its encoder lays
out. -/
theorem stepRunsDecodedInstruction : Obligations.StepRunsDecodedInstruction := by
  refine fun s i hr => ⟨fun bs hd hb => ?_, step_of_bytesAt hr⟩
  obtain rfl : bs = encode i := by simpa using (decodeAndEncodeAgree bs i []).mp hd
  exact step_of_bytesAt hr hb

/-- Settles O14: a CORE is stopped when it is halted and when the host ended its run. -/
theorem stepOfStoppedCoreChangesNothing : Obligations.StepOfStoppedCoreChangesNothing :=
  ⟨fun _ hh => step_of_stopped (Bool.or_eq_true_iff.mpr (.inl hh)),
    fun _ ht => step_of_stopped (Bool.or_eq_true_iff.mpr (.inr ht))⟩

/-! ## Hook calls that stop the STEP (rules R92, R147, R217) -/

/-- The port index is the low byte of the register that names it (rule R49). -/
theorem State.portIndex_eq {s : State} {p q : Byte} (hq : q.toNat = (s.x p).toNat % 256) :
    s.portIndex p = q := by
  apply BitVec.eq_of_toNat_eq
  rw [hq, State.portIndex, lowByte, BitVec.toNat_setWidth]

/-- A port bank is known by what each port holds. -/
theorem ports_ext {a b : Ports} (h : ∀ r : Byte, a[r.toNat]'r.isLt = b[r.toNat]'r.isLt) : a = b :=
  Vector.ext fun n hn => h (BitVec.ofNatLT n hn)

/-- The port bank after a write of one port, by what each port holds. -/
theorem State.setPort_ports_eq {s : State} {q : Byte} {v : Word} {written : Ports}
    (h : ∀ r : Byte, written[r.toNat]'r.isLt = if r = q then v else s.getPort r) :
    (s.setPort q v).ports = written := by
  refine ports_ext fun r => ?_
  rw [h r]
  split
  next hr => subst hr; exact State.getPort_setPort_self s r v
  next hr => exact State.getPort_setPort_ne s v hr

section HookCall
variable {kind : HookKind} {q : Byte} {s : State} {k : State → Host.Outcome State Fault Refusal}

theorem callHook_of_neverReturns (h : s.hookAnswer (s.callsAfter kind q) = .neverReturns) :
    callHook kind q s k = .fault .hookNeverReturns := by
  rw [callHook, h]

theorem callHook_of_breaksDuty (h : s.hookAnswer (s.callsAfter kind q) = .breaksDuty) :
    callHook kind q s k = .refused .hookBreaksDuty := by
  rw [callHook, h]

end HookCall

/-- IN with a sense hook attached is the hook call, then the read (rule R142). -/
theorem exec_inp_of_sense {s : State} {d p q : Byte} (hq : q.toNat = (s.x p).toNat % 256)
    (hs : s.cfg.sensePresent = true) :
    exec (.inp d p) s = callHook .sense q s (readPort d q) := by
  rw [exec, execIn, if_pos hs, State.portIndex_eq hq]

/-- OUT with an emit hook attached is the write, then the hook call (rule R143). -/
theorem exec_out_of_emit {s : State} {p v q : Byte} (hq : q.toNat = (s.x p).toNat % 256)
    (he : s.cfg.emitPresent = true) :
    exec (.out p v) s = callHook .emit q (s.setPort q (s.x v)) .next := by
  rw [exec, execOut, if_pos he, State.portIndex_eq hq]

/-- The host's answer to OUT's hook call, by the bank OUT wrote before it (rule R145). -/
theorem State.hookAnswer_setPort {s : State} {q : Byte} {v : Word} {written : Ports}
    (h : ∀ r : Byte, written[r.toNat]'r.isLt = if r = q then v else s.getPort r) :
    (s.setPort q v).hookAnswer ((s.setPort q v).callsAfter .emit q) =
      s.hookAnswer ({ kind := .emit, port := q, ports := written } :: s.hookCalls) := by
  rw [State.callsAfter, State.setPort_ports_eq h]
  rfl

/-- Settles O34: IN and OUT are hook calls where the hook is attached, and the two answers stop a hook
call whatever was to follow it. -/
theorem hookThatNeverReturnsOrBreaksDutyStops : Obligations.HookThatNeverReturnsOrBreaksDutyStops := by
  refine fun s p q hq => ⟨fun d hs => ?_, fun v written he hw => ?_⟩
  · rw [exec_inp_of_sense hq hs]
    exact ⟨callHook_of_neverReturns, callHook_of_breaksDuty⟩
  · rw [exec_out_of_emit hq he, ← State.hookAnswer_setPort hw]
    exact ⟨callHook_of_neverReturns, callHook_of_breaksDuty⟩

/-! ## How a STEP can end (rule R92) -/

/-- A hook is attached, and it stops the STEP. -/
def StopsInHook (s : State) (o : Host.Outcome State Fault Refusal) : Prop :=
  (s.cfg.sensePresent = true ∨ s.cfg.emitPresent = true) ∧
    (o = .fault .hookNeverReturns ∨ o = .refused .hookBreaksDuty)

/-- A hook call ends in a next state if what follows it does, or stops. -/
theorem callHook_ends {kind : HookKind} {q : Byte} {s : State}
    {k : State → Host.Outcome State Fault Refusal} (hk : ∀ u, ∃ t, k u = .next t) :
    (∃ t, callHook kind q s k = .next t) ∨ callHook kind q s k = .fault .hookNeverReturns ∨
      callHook kind q s k = .refused .hookBreaksDuty := by
  rcases callHook_cases kind q s k with ⟨bank, -, e⟩ | ⟨-, e⟩ | ⟨-, e⟩ | ⟨-, e⟩
  · exact .inl (e ▸ hk _)
  · exact .inl ⟨_, e⟩
  · exact .inr (.inl e)
  · exact .inr (.inr e)

theorem divisionReg_next (f : Word → Word → Word) (d a b : Byte) (s : State) :
    ∃ t, divisionReg f d a b s = .next t := by
  rcases divisionReg_cases f d a b s with ⟨-, e⟩ | ⟨-, e⟩ <;> exact ⟨_, e⟩

theorem loadDigit_next (d : Byte) (digit : Option Word) (s : State) :
    ∃ t, loadDigit d digit s = .next t := by
  rcases loadDigit_cases d digit s with ⟨v, -, e⟩ | ⟨-, e⟩ <;> exact ⟨_, e⟩

theorem execBr_next (c a b t : Byte) (s : State) : ∃ u, execBr c a b t s = .next u := by
  unfold execBr
  split <;> exact ⟨_, rfl⟩

theorem execSkip_next (c a b : Byte) (s : State) : ∃ t, execSkip c a b s = .next t := by
  unfold execSkip
  split <;> exact ⟨_, rfl⟩

theorem execCall_next (t : Byte) (s : State) : ∃ u, execCall t s = .next u := by
  unfold execCall
  split <;> exact ⟨_, rfl⟩

theorem execRet_next (s : State) : ∃ t, execRet s = .next t := by
  unfold execRet
  split <;> exact ⟨_, rfl⟩

theorem execBlk_next (l : Byte) (s : State) : ∃ t, execBlk l s = .next t := by
  unfold execBlk
  split <;> exact ⟨_, rfl⟩

/-- IN ends in a next state, unless the sense hook stops it. -/
theorem execIn_ends (d p : Byte) (s : State) :
    (∃ t, execIn d p s = .next t) ∨ StopsInHook s (execIn d p s) := by
  unfold execIn
  split
  · exact (callHook_ends fun _ => ⟨_, rfl⟩).imp_right (⟨.inl ‹_›, ·⟩)
  · exact .inl ⟨_, rfl⟩

/-- OUT ends in a next state, unless the emit hook stops it. -/
theorem execOut_ends (p v : Byte) (s : State) :
    (∃ t, execOut p v s = .next t) ∨ StopsInHook s (execOut p v s) := by
  unfold execOut
  split
  · exact (callHook_ends fun u => ⟨u, rfl⟩).imp_right (⟨.inr ‹_›, ·⟩)
  · exact .inl ⟨_, rfl⟩

/-- Every instruction ends in a next state, unless a hook stops it. -/
theorem exec_ends (i : Instr) (s : State) : (∃ t, exec i s = .next t) ∨ StopsInHook s (exec i s) := by
  cases i
  case inp d p => exact execIn_ends d p s
  case out p v => exact execOut_ends p v s
  case div | mod => exact .inl (divisionReg_next _ _ _ _ s)
  case liD | liX => exact .inl (loadDigit_next _ _ s)
  case br c a b t => exact .inl (execBr_next c a b t s)
  case skip c a b => exact .inl (execSkip_next c a b s)
  case call t => exact .inl (execCall_next t s)
  case ret => exact .inl (execRet_next s)
  case blk l => exact .inl (execBlk_next l s)
  all_goals exact .inl ⟨_, rfl⟩

theorem step_ends (s : State) : (∃ t, step s = .next t) ∨ StopsInHook s (step s) := by
  rcases step_cases s with ⟨-, e⟩ | ⟨-, i, e, -⟩ | ⟨-, c, k, -, e⟩
  · exact .inl ⟨_, e⟩
  · rw [e]; exact exec_ends i (s.fetched _)
  · exact .inl ⟨_, e⟩

/-- Settles O54: a STEP is idle, faults in the decode phase, or is an instruction, and only a hook call
ends in no next state. -/
theorem stepEndsUnlessAHookStopsIt : Obligations.StepEndsUnlessAHookStopsIt := by
  refine ⟨fun s hs he => (step_ends s).resolve_right ?_, fun s => (step_ends s).imp_right And.right⟩
  rintro ⟨h, -⟩
  simp [hs, he] at h

/-! ## Faults are precise (rules R86, R203) -/

/-- The one effect that records a code is the fault. -/
theorem Effect.fault_of_code {i : Instr} {s t : State} (h : Effect s i t) (hs : s.code = .noFault)
    (ht : t.code ≠ .noFault) :
    ∃ c u, t = raiseFault c u ∧ RegsOnly s u ∧
      ∀ r, r ≠ pcReg → (∀ l, i = .blk l → r ≠ reg l) → u.getReg r = s.getReg r := by
  have unrecorded : t.code ≠ s.code := fun e => ht (e.trans hs)
  cases h with
  | fault _ h hr => exact ⟨_, _, rfl, h, hr⟩
  | regs h => exact absurd h.sameStatus.2.1 unrecorded
  | halt | store | call | ret => exact absurd rfl unrecorded
  | port _ h | terminated _ h => exact absurd (congrArg State.code h) unrecorded

/-- Settles O56: a code is recorded by the fault effect alone, which wrote registers only before it. -/
theorem faultChangesOnlyPcAndLabel : Obligations.FaultChangesOnlyPcAndLabel := by
  intro i s t h hs ht
  obtain ⟨c, u, rfl, hu, hr⟩ := (exec_effect h).fault_of_code hs ht
  exact ⟨rfl, fun a => congrArg (·.read a) hu.mem_eq, hu.sameStack, hu.samePorts, hu.cfg_eq, hr⟩

/-! ## The end of a run (rules R91, R207, R216) -/

theorem run_of_stopped {s : State} (h : s.stopped = true) (n : Nat) : run n s = .next s := by
  cases n with
  | zero => rfl
  | succ n => rw [run, if_pos h]

/-- A run that has ended stays in its end however long it is watched. -/
theorem run_add {n : Nat} {s t : State} (h : run n s = .next t) (ht : t.stopped = true) (k : Nat) :
    run (n + k) s = .next t := by
  induction n generalizing s with
  | zero =>
    cases h
    exact run_of_stopped ht _
  | succ n ih =>
    rw [Nat.succ_add, run]
    rw [run] at h
    split at h
    · rwa [if_pos ‹_›]
    · rw [if_neg ‹_›]
      cases hstep : step s with
      | next u => rw [hstep] at h; exact ih h
      | fault f => rw [hstep] at h; cases h
      | refused r => rw [hstep] at h; cases h

/-- Two watches of a run that see its end see the same one, for the longer sees what the shorter saw. -/
theorem RunEndsIn.unique {s t u : State} (ht : RunEndsIn s t) (hu : RunEndsIn s u) : t = u := by
  obtain ⟨n, hn, ht⟩ := ht
  obtain ⟨m, hm, hu⟩ := hu
  have h1 := run_add hn ht m
  rw [Nat.add_comm, run_add hm hu n] at h1
  exact (Host.Outcome.next.inj h1).symm

/-- A stopped CORE was ended by the host, or is halted with a fault's code or without one. -/
theorem State.runEnd_of_stopped {s : State} (h : s.stopped = true) : ∃ e, s.runEnd = some e := by
  unfold State.runEnd
  split
  · exact ⟨_, rfl⟩
  · have hh : s.halted = true := (Bool.or_eq_true_iff.mp h).resolve_right ‹_›
    rw [if_pos hh]
    split <;> exact ⟨_, rfl⟩

/-- Settles O58: a run watched longer stays in the state it ended in, and that state is stopped. -/
theorem runEndsInOneWay : Obligations.RunEndsInOneWay :=
  ⟨fun n _ hs => run_of_stopped hs n, fun _ _ _ => RunEndsIn.unique,
    fun _ _ ⟨_, _, ht⟩ => State.runEnd_of_stopped ht⟩

end Sys2Proof.Machine

/-! PROOFS. Arithmetic and bitwise (spec 41_arith_bitwise.md): what the destination holds after each
instruction, and that the zero divisor is the one fault. -/

namespace Sys2Proof

/-- Subtraction wraps to the remainder that is not negative (rule R102). -/
theorem toNat_sub_eq_emod {w : Nat} (x y : BitVec w) :
    ((x - y).toNat : Int) = ((x.toNat : Int) - y.toNat) % 2 ^ w := by
  have hy : y.toNat ≤ 2 ^ w := y.isLt.le
  have hshift : (2 ^ w - y.toNat + x.toNat : Int) = x.toNat - y.toNat + 2 ^ w := by ring
  rw [BitVec.toNat_sub]
  push_cast [hy]
  rw [hshift, Int.add_emod_right]

end Sys2Proof

namespace Sys2Proof.Machine

/-! ## The write of the destination (rule R100) -/

section Destination
variable {i : Instr} {d : Byte} {s : State} {v : Word}

/-- A meaning that writes its destination writes nothing else. -/
theorem exec_writes (h : exec i s = .next (s.setX d v)) :
    ∃ t, exec i s = .next t ∧ OnlyRegs [reg d] s t ∧ t.x d = v :=
  ⟨_, h, onlyRegs_setReg s (reg d) v, s.x_setX_self d v⟩

/-- The write of the destination, by the number written. -/
theorem exec_writes_toNat {n : Nat} (h : exec i s = .next (s.setX d v)) (hv : v.toNat = n) :
    ∃ t, exec i s = .next t ∧ OnlyRegs [reg d] s t ∧ (t.x d).toNat = n := by
  obtain ⟨t, ht, hregs, rfl⟩ := exec_writes h
  exact ⟨t, ht, hregs, hv⟩

/-- The write of the destination, by the bits written. -/
theorem exec_writes_bits {bit : Nat → Bool} (h : exec i s = .next (s.setX d v))
    (hv : ∀ k, v.getLsbD k = bit k) :
    ∃ t, exec i s = .next t ∧ OnlyRegs [reg d] s t ∧ ∀ k, k < 32 → (t.x d).getLsbD k = bit k := by
  obtain ⟨t, ht, hregs, rfl⟩ := exec_writes h
  exact ⟨t, ht, hregs, fun k _ => hv k⟩

end Destination

/-! ## Sum, difference and product (rules R101 to R103) -/

theorem exec_sub_writes (d a b : Byte) (s : State) :
    ∃ t, exec (.sub d a b) s = .next t ∧ OnlyRegs [reg d] s t ∧
      ((t.x d).toNat : Int) = ((s.x a).toNat - (s.x b).toNat : Int) % 2 ^ 32 := by
  obtain ⟨t, ht, hregs, hx⟩ := exec_writes (i := .sub d a b) (s := s) rfl
  exact ⟨t, ht, hregs, hx ▸ toNat_sub_eq_emod (s.x a) (s.x b)⟩

/-- Settles O18: each is one write of the destination, and a word operation is modulo 2^32. -/
theorem addSubMulWrapModulo : Obligations.AddSubMulWrapModulo := by
  refine fun d a b => ⟨⟨rfl, runsFromItsBytes _, fun s => ?_⟩,
    ⟨rfl, runsFromItsBytes _, exec_sub_writes d a b⟩, ⟨rfl, runsFromItsBytes _, fun s => ?_⟩⟩
  · exact exec_writes_toNat rfl (BitVec.toNat_add (s.x a) (s.x b))
  · exact exec_writes_toNat rfl (BitVec.toNat_mul (s.x a) (s.x b))

/-! ## Quotient and remainder (rules R104, R105, R112) -/

section Division
variable {f : Word → Word → Word} {d a b : Byte} {s : State}

theorem divisionReg_of_ne_zero (hb : s.x b ≠ 0) :
    divisionReg f d a b s = .next (s.setX d (f (s.x a) (s.x b))) := if_neg hb

theorem divisionReg_of_eq_zero (hb : s.x b = 0) :
    divisionReg f d a b s = .next (raiseFault .division s) := if_pos hb

theorem exec_div_of_ne_zero (hb : s.x b ≠ 0) :
    ∃ t, exec (.div d a b) s = .next t ∧ OnlyRegs [reg d] s t ∧
      (t.x d).toNat = (s.x a).toNat / (s.x b).toNat :=
  exec_writes_toNat (divisionReg_of_ne_zero hb) BitVec.toNat_udiv

theorem exec_mod_of_ne_zero (hb : s.x b ≠ 0) :
    ∃ t, exec (.mod d a b) s = .next t ∧ OnlyRegs [reg d] s t ∧
      (t.x d).toNat = (s.x a).toNat % (s.x b).toNat :=
  exec_writes_toNat (divisionReg_of_ne_zero hb) BitVec.toNat_umod

/-- A zero divisor faults before the destination is written. -/
theorem divisionReg_faults (hb : s.x b = 0) :
    ∃ t, divisionReg f d a b s = .next t ∧ FaultsWith .division [] s t :=
  ⟨_, divisionReg_of_eq_zero hb, faultsWith_raiseFault .division s⟩

end Division

/-- Settles O19: DIV and MOD are one shared division, which tests its divisor first; the remainder is the
dividend less the divisor times the quotient. -/
theorem divModFloorOrFault : Obligations.DivModFloorOrFault := by
  refine fun _ _ _ => ⟨⟨rfl, runsFromItsBytes _, fun _ => ⟨exec_div_of_ne_zero, divisionReg_faults⟩⟩,
    ⟨rfl, runsFromItsBytes _, fun _ => ⟨fun hb => ?_, divisionReg_faults⟩⟩⟩
  rw [← Nat.mod_eq_sub_mul_div]
  exact exec_mod_of_ne_zero hb

/-- Settles O20: the two results are the quotient and the remainder of natural numbers. -/
theorem quotientAndRemainderRebuildDividend : Obligations.QuotientAndRemainderRebuildDividend := by
  intro s d e a b hb
  obtain ⟨t, ht, -, hquot⟩ := exec_div_of_ne_zero (d := d) (a := a) hb
  obtain ⟨u, hu, -, hrem⟩ := exec_mod_of_ne_zero (d := e) (a := a) hb
  have hpos : 0 < (s.x b).toNat := BitVec.toNat_pos_of_ne_zero hb
  refine ⟨t, u, ht, hu, ?_, ?_⟩
  · rw [hquot, hrem, Nat.div_add_mod]
  · rw [hrem]
    exact Nat.mod_lt _ hpos

/-! ## Bitwise operations (rules R106 to R109) -/

/-- Settles O21: each is one write of the destination, and a word operation works on each bit. -/
theorem bitwiseResultsBitByBit : Obligations.BitwiseResultsBitByBit := by
  refine fun _ _ _ => ⟨⟨rfl, runsFromItsBytes _, fun _ => ?_⟩, ⟨rfl, runsFromItsBytes _, fun _ => ?_⟩,
    ⟨rfl, runsFromItsBytes _, fun _ => ?_⟩, ⟨rfl, runsFromItsBytes _, fun _ => ?_⟩⟩
  · exact exec_writes_bits rfl fun _ => BitVec.getLsbD_and
  · exact exec_writes_bits rfl fun _ => BitVec.getLsbD_or
  · exact exec_writes_bits rfl fun _ => BitVec.getLsbD_xor
  · exact exec_writes_toNat rfl BitVec.toNat_not

/-! ## Shifts (rules R110, R111) -/

theorem shiftLeft_toNat (va vb : Word) :
    (shiftLeft va vb).toNat =
      if 32 ≤ vb.toNat then 0 else (va.toNat * 2 ^ vb.toNat) % 2 ^ 32 := by
  unfold shiftLeft
  split
  · rfl
  · rw [BitVec.toNat_shiftLeft, Nat.shiftLeft_eq]

theorem shiftRight_toNat (va vb : Word) :
    (shiftRight va vb).toNat = if 32 ≤ vb.toNat then 0 else va.toNat / 2 ^ vb.toNat := by
  unfold shiftRight
  split
  · rfl
  · rw [BitVec.toNat_ushiftRight, Nat.shiftRight_eq_div_pow]

/-- Settles O22: each is one write of the destination, of the shift by the whole amount. -/
theorem shiftsUseTheFullAmount : Obligations.ShiftsUseTheFullAmount := by
  refine fun _ a b => ⟨⟨rfl, runsFromItsBytes _, fun s => ?_⟩, ⟨rfl, runsFromItsBytes _, fun s => ?_⟩⟩
  · exact exec_writes_toNat rfl (shiftLeft_toNat (s.x a) (s.x b))
  · exact exec_writes_toNat rfl (shiftRight_toNat (s.x a) (s.x b))

end Sys2Proof.Machine

/-! PROOFS. Immediate load (spec 42_immediate.md): the value each mode writes, and the payloads and mode
bytes that fault. -/

namespace Sys2Proof.Machine

/-! ## A mode byte that is none (rule R127) -/

/-- Settles O13: the decode phase ends at the mode byte, the third byte fetched. -/
theorem invalidImmediateModeFaults : Obligations.InvalidImmediateModeFaults :=
  fun s _ _ hr hb hm =>
    ⟨_, step_of_faulted hr (fetchInstr_of_invalidMode hb (modePayload_eq_none hm)), s.fetched_pc 3,
      faultsWith_raiseFault_fetched .invalidOpcode s 3⟩

/-! ## Modes r and w (rules R121, R124) -/

theorem zext_toNat (b : Byte) : (zext b).toNat = b.toNat :=
  BitVec.toNat_setWidth_of_le (by decide)

/-- A byte appended below a value is a digit of base 2^8. -/
theorem toNat_append_byte {w : Nat} (x : BitVec w) (b : Byte) :
    (x ++ b).toNat = b.toNat + 2 ^ 8 * x.toNat := by
  rw [BitVec.toNat_append, ← Nat.shiftLeft_add_eq_or_of_lt b.isLt, Nat.shiftLeft_eq]
  ring

theorem littleEndian_toNat (v0 v1 v2 v3 : Byte) :
    (littleEndian v0 v1 v2 v3).toNat =
      v0.toNat + 2 ^ 8 * v1.toNat + 2 ^ 16 * v2.toNat + 2 ^ 24 * v3.toNat := by
  simp only [littleEndian, toNat_append_byte]
  ring

/-- Settles O23: each is one write of the destination, of the byte or of the four bytes as digits of
base 2^8. -/
theorem loadRawByteAndWord : Obligations.LoadRawByteAndWord := by
  refine ⟨fun _ v => ⟨rfl, runsFromItsBytes _, fun _ => ?_⟩,
    fun _ v0 v1 v2 v3 => ⟨rfl, runsFromItsBytes _, fun _ => ?_⟩⟩
  · exact exec_writes_toNat rfl (zext_toNat v)
  · exact exec_writes_toNat rfl (littleEndian_toNat v0 v1 v2 v3)

/-! ## Modes d and x (rules R122, R123) -/

section Digits
variable {v : Byte}

/-- The tests of a hexadecimal digit, on the number of the byte. -/
theorem hexDigit_eq (v : Byte) :
    hexDigit v =
      if 0x30 ≤ v.toNat ∧ v.toNat ≤ 0x39 then some (zext (v - 0x30))
      else if 0x61 ≤ v.toNat ∧ v.toNat ≤ 0x66 then some (zext (v - 0x57))
      else if 0x41 ≤ v.toNat ∧ v.toNat ≤ 0x46 then some (zext (v - 0x37))
      else none := rfl

theorem decimalDigit_of_digit (h : 0x30 ≤ v.toNat ∧ v.toNat ≤ 0x39) :
    decimalDigit v = some (zext (v - 0x30)) := if_pos h

theorem decimalDigit_eq_none (h : v.toNat < 0x30 ∨ 0x39 < v.toNat) : decimalDigit v = none :=
  if_neg (show ¬(0x30 ≤ v.toNat ∧ v.toNat ≤ 0x39) by omega)

theorem hexDigit_of_digit (h : 0x30 ≤ v.toNat ∧ v.toNat ≤ 0x39) :
    hexDigit v = some (zext (v - 0x30)) := if_pos h

theorem hexDigit_of_lower (h : 0x61 ≤ v.toNat ∧ v.toNat ≤ 0x66) :
    hexDigit v = some (zext (v - 0x57)) := by
  rw [hexDigit_eq, if_neg (by omega), if_pos h]

theorem hexDigit_of_upper (h : 0x41 ≤ v.toNat ∧ v.toNat ≤ 0x46) :
    hexDigit v = some (zext (v - 0x37)) := by
  rw [hexDigit_eq, if_neg (by omega), if_neg (by omega), if_pos h]

theorem hexDigit_eq_none (h : v.toNat < 0x30 ∨ (0x39 < v.toNat ∧ v.toNat < 0x41) ∨
    (0x46 < v.toNat ∧ v.toNat < 0x61) ∨ 0x66 < v.toNat) : hexDigit v = none := by
  rw [hexDigit_eq, if_neg (by omega), if_neg (by omega), if_neg (by omega)]

/-- A digit's value is its distance from the byte that stands for 0 in its range (rule R68). -/
theorem zext_sub_toNat {zero : Byte} (h : zero.toNat ≤ v.toNat) :
    (zext (v - zero)).toNat = v.toNat - zero.toNat := by
  rw [zext_toNat, BitVec.toNat_sub_of_le h]

end Digits

section DigitModes
variable {i : Instr} {d v : Byte} {digit : Option Word} {s : State}

/-- A digit mode writes the value of a digit of the mode. -/
theorem exec_writes_digit {zero : Byte} (hi : exec i s = loadDigit d digit s)
    (hdigit : digit = some (zext (v - zero))) (hle : zero.toNat ≤ v.toNat) :
    ∃ t, exec i s = .next t ∧ OnlyRegs [reg d] s t ∧ (t.x d).toNat = v.toNat - zero.toNat := by
  subst hdigit
  exact exec_writes_toNat hi (zext_sub_toNat hle)

/-- A payload that is no digit of the mode faults before the destination is written. -/
theorem exec_faults_of_no_digit (hi : exec i s = loadDigit d digit s) (hdigit : digit = none) :
    ∃ t, exec i s = .next t ∧ FaultsWith .invalidOpcode [] s t := by
  subst hdigit
  exact ⟨_, hi, faultsWith_raiseFault .invalidOpcode s⟩

end DigitModes

/-- Settles O24: both modes are one shared digit write; the payload's range says which byte stands for 0,
or that it is no digit. -/
theorem loadDigitValueOrFault : Obligations.LoadDigitValueOrFault := by
  refine ⟨fun d v => ⟨rfl, runsFromItsBytes _, fun s => ⟨fun h => ?_, fun h => ?_⟩⟩,
    fun d v => ⟨rfl, runsFromItsBytes _, fun s => ⟨fun h => ?_, fun h => ?_, fun h => ?_, fun h => ?_⟩⟩⟩
  · exact exec_writes_digit rfl (decimalDigit_of_digit h) h.1
  · exact exec_faults_of_no_digit rfl (decimalDigit_eq_none h)
  · exact exec_writes_digit rfl (hexDigit_of_digit h) h.1
  · exact exec_writes_digit (zero := 0x57) rfl (hexDigit_of_lower h) (Nat.le_trans (by decide) h.1)
  · exact exec_writes_digit (zero := 0x37) rfl (hexDigit_of_upper h) (Nat.le_trans (by decide) h.1)
  · exact exec_faults_of_no_digit rfl (hexDigit_eq_none h)

/-! ## Modes m and i (rules R125, R126) -/

/-- The byte at the wrapped address names the register that mode `i` copies, bit 7 ignored (rule R126). -/
theorem State.indirect_eq {s : State} {v : Byte} {r : Fin 128}
    (hr : r.val = (s.mem.read ((s.x v).toNat % s.memSize)).toNat % 128) :
    s.indirect v = s.getReg r := by
  rw [← State.wrap_eq_mod] at hr
  exact congrArg s.getReg (Fin.ext hr.symm)

/-- Settles O25: each is one write of the destination, of the register named by the payload or by the
memory byte it leads to. -/
theorem loadCopiesRegister : Obligations.LoadCopiesRegister := by
  refine fun d v => ⟨⟨rfl, runsFromItsBytes _, fun s => exec_writes rfl⟩,
    ⟨rfl, runsFromItsBytes _, fun s => ?_⟩⟩
  obtain ⟨t, ht, hregs, hx⟩ := exec_writes (i := .liI d v) (s := s) rfl
  exact ⟨t, ht, hregs, fun r hr => hx.trans (State.indirect_eq hr)⟩

end Sys2Proof.Machine

/-! PROOFS. Memory access and port access (spec 43_memory_port.md): the byte LD reads and the byte ST
writes, and what IN and OUT do without a hook, with one that returns and with one that ends the run. -/

namespace Sys2Proof.Machine

/-! ## Load and store (rules R140, R141) -/

/-- Settles O27: one write of the destination, and the wrapped address is a remainder. -/
theorem ldReadsWrappedByte : Obligations.LdReadsWrappedByte := by
  refine fun d a => ⟨rfl, runsFromItsBytes _, fun s => exec_writes_toNat rfl ?_⟩
  rw [zext_toNat, State.memRead, State.wrap_eq_mod]

theorem lowByte_toNat (v : Word) : (lowByte v).toNat = v.toNat % 256 := BitVec.toNat_setWidth 8 v

/-- Settles O28: what every address reads after the store is known from one law, and no other component
is written. -/
theorem stWritesWrappedByte : Obligations.StWritesWrappedByte := by
  refine fun a v => ⟨rfl, runsFromItsBytes _, fun s hs => ⟨_, rfl, fun k hk => ⟨?_, fun j hj => ?_⟩,
    fun _ _ => rfl, ⟨rfl, rfl⟩, ⟨rfl, rfl, rfl⟩, ⟨rfl, rfl, rfl⟩, rfl⟩⟩
  · rw [State.read_memWrite hs, if_pos hk.symm, lowByte_toNat]
  · rw [State.read_memWrite hs, if_neg (hk ▸ hj)]

/-! ## The frame of a port access (rules R142, R143) -/

/-- Nothing but the registers in `rs`, the port bank and the record of the hook calls changes. -/
def OnlyRegsAndPorts (rs : List (Fin 128)) (s t : State) : Prop :=
  SameRegsBut rs s t ∧ SameMemory s t ∧ SameStack s t ∧ SameStatus s t ∧ t.cfg = s.cfg

theorem onlyRegsAndPorts_of_eq {s t : State}
    (h : t = { s with ports := t.ports, hookCalls := t.hookCalls, hostAnswers := t.hostAnswers }) :
    OnlyRegsAndPorts [] s t := by
  rw [h]
  exact ⟨fun _ _ => rfl, fun _ => rfl, ⟨rfl, rfl⟩, ⟨rfl, rfl, rfl⟩, rfl⟩

/-- A register written after the ports joins the frame. -/
theorem OnlyRegsAndPorts.setX {s u : State} (h : OnlyRegsAndPorts [] s u) (d : Byte) (v : Word) :
    OnlyRegsAndPorts [reg d] s (u.setX d v) := by
  obtain ⟨hregs, hrest⟩ := h
  obtain ⟨hset, -⟩ := onlyRegs_setReg u (reg d) v
  exact ⟨fun r hr => (hset r hr).trans (hregs r List.not_mem_nil), hrest⟩

/-! ## Hook calls that return, and that end the run (rules R144, R214) -/

section HookCall
variable {kind : HookKind} {q : Byte} {s : State} {k : State → Host.Outcome State Fault Refusal}

theorem callHook_of_returns {bank : Ports} (h : s.hookAnswer (s.callsAfter kind q) = .returns bank) :
    callHook kind q s k = k ((s.afterCall kind q).setPorts bank) := by
  rw [callHook, h]

theorem callHook_of_terminates (h : s.hookAnswer (s.callsAfter kind q) = .terminates) :
    callHook kind q s k = .next (s.afterCall kind q).terminate := by
  rw [callHook, h]

end HookCall

/-! ## IN (rule R142) -/

section In
variable {s : State} {d p q : Byte} (hq : q.toNat = (s.x p).toNat % 256)
include hq

/-- Without a sense hook the port is plain storage (rule R146). -/
theorem exec_inp_of_no_sense (hs : s.cfg.sensePresent = false) :
    exec (.inp d p) s = .next (s.setX d (s.getPort q)) := by
  rw [exec, execIn, hs, State.portIndex_eq hq]
  rfl

theorem exec_inp_of_returns {bank : Ports} (hs : s.cfg.sensePresent = true)
    (h : s.hookAnswer (s.callsAfter .sense q) = .returns bank) :
    exec (.inp d p) s = readPort d q ((s.afterCall .sense q).setPorts bank) := by
  rw [exec_inp_of_sense hq hs, callHook_of_returns h]

theorem exec_inp_of_terminates (hs : s.cfg.sensePresent = true)
    (h : s.hookAnswer (s.callsAfter .sense q) = .terminates) :
    exec (.inp d p) s = .next (s.afterCall .sense q).terminate := by
  rw [exec_inp_of_sense hq hs, callHook_of_terminates h]

end In

/-- Settles O31: without a hook IN is one write of the destination, with one that returns it is that write
from the state the host left, and with one that ends the run it writes no register. -/
theorem inReadsPortAfterSense : Obligations.InReadsPortAfterSense := by
  refine fun d p => ⟨rfl, runsFromItsBytes _, fun s q hq =>
    ⟨fun hs => ?_, fun bank hs hret => ?_, fun hs hterm => ?_⟩⟩
  · exact exec_writes (exec_inp_of_no_sense hq hs)
  · have hframe : OnlyRegsAndPorts [] s ((s.afterCall .sense q).setPorts bank) :=
      onlyRegsAndPorts_of_eq rfl
    exact ⟨_, exec_inp_of_returns hq hs hret, State.x_setX_self _ _ _, rfl, rfl, rfl, hframe.setX d _⟩
  · exact ⟨_, exec_inp_of_terminates hq hs hterm, rfl, fun _ _ => rfl⟩

/-! ## OUT (rule R143) -/

section Out
variable {s : State} {p v q : Byte} (hq : q.toNat = (s.x p).toNat % 256)
include hq

/-- Without an emit hook the port is plain storage (rule R146). -/
theorem exec_out_of_no_emit (he : s.cfg.emitPresent = false) :
    exec (.out p v) s = .next (s.setPort q (s.x v)) := by
  rw [exec, execOut, he, State.portIndex_eq hq]
  rfl

variable {written : Ports} (he : s.cfg.emitPresent = true)
  (hw : ∀ r : Byte, written[r.toNat]'r.isLt = if r = q then s.x v else s.getPort r)
include he hw

theorem exec_out_of_returns {bank : Ports}
    (h : s.hookAnswer ({ kind := .emit, port := q, ports := written } :: s.hookCalls) =
      .returns bank) :
    exec (.out p v) s = .next (((s.setPort q (s.x v)).afterCall .emit q).setPorts bank) := by
  rw [← State.hookAnswer_setPort hw] at h
  rw [exec_out_of_emit hq he, callHook_of_returns h]

theorem exec_out_of_terminates
    (h : s.hookAnswer ({ kind := .emit, port := q, ports := written } :: s.hookCalls) =
      .terminates) :
    exec (.out p v) s = .next ((s.setPort q (s.x v)).afterCall .emit q).terminate := by
  rw [← State.hookAnswer_setPort hw] at h
  rw [exec_out_of_emit hq he, callHook_of_terminates h]

end Out

/-- The record after OUT's hook call, by the bank OUT wrote before it (rule R145). -/
theorem State.callsAfter_setPort {s : State} {q : Byte} {v : Word} {written : Ports}
    (h : ∀ r : Byte, written[r.toNat]'r.isLt = if r = q then v else s.getPort r) :
    (s.setPort q v).callsAfter .emit q =
      { kind := .emit, port := q, ports := written } :: s.hookCalls := by
  rw [State.callsAfter, State.setPort_ports_eq h]
  rfl

/-- Settles O32: the write of the port comes first, so it stands in the bank the hook is shown and in the
state where the host ends the run; a hook that returns replaces the bank. -/
theorem outWritesPortThenEmits : Obligations.OutWritesPortThenEmits := by
  refine fun p v => ⟨rfl, runsFromItsBytes _, fun s q hq =>
    ⟨fun he => ?_, fun written bank he hw hret => ?_, fun written he hw hterm => ?_⟩⟩
  · exact ⟨_, exec_out_of_no_emit hq he, State.getPort_setPort_self s q _,
      fun _ hr => State.getPort_setPort_ne s _ hr, rfl, rfl, onlyRegsAndPorts_of_eq rfl⟩
  · exact ⟨_, exec_out_of_returns hq he hw hret, rfl, State.callsAfter_setPort hw, rfl,
      onlyRegsAndPorts_of_eq rfl⟩
  · exact ⟨_, exec_out_of_terminates hq he hw hterm, rfl, State.setPort_ports_eq hw, fun _ _ => rfl⟩

end Sys2Proof.Machine

/-! PROOFS. Control transfer (spec 44_control.md): jumps and branches, the skip, the call stack and the
balance of calls and returns, labels and structured blocks. -/

namespace Sys2Proof.Machine

/-! ## The frame of register writes, and of a fault after them (rules R85, R86) -/

/-- An instruction that changes nothing is in every frame. -/
theorem onlyRegs_self (rs : List (Fin 128)) (s : State) : OnlyRegs rs s s :=
  ⟨fun _ _ => rfl, fun _ => rfl, ⟨rfl, rfl⟩, ⟨rfl, rfl, rfl⟩, ⟨rfl, rfl, rfl⟩, rfl⟩

/-- One more write of a register of the frame stays in it. -/
theorem OnlyRegs.setReg {rs : List (Fin 128)} {s u : State} {r : Fin 128} (h : OnlyRegs rs s u)
    (hr : r ∈ rs) (v : Word) : OnlyRegs rs s (u.setReg r v) := by
  obtain ⟨hregs, hrest⟩ := h
  refine ⟨fun q hq => ?_, hrest⟩
  have hne : q ≠ r := fun e => hq (e ▸ hr)
  rw [State.getReg_setReg_ne u r v hne, hregs q hq]

/-- A fault keeps the registers written before it. -/
theorem OnlyRegs.faultsWith {rs : List (Fin 128)} {s u : State} (h : OnlyRegs rs s u)
    (c : StatusCode) : FaultsWith c rs s (raiseFault c u) := by
  obtain ⟨hregs, hmem, hstack, ⟨-, -, hterm⟩, hports, hcfg⟩ := h
  exact ⟨hregs, hmem, hstack, hports, hcfg, hterm, rfl, rfl⟩

/-! ## JMP (rule R161) -/

/-- Settles O35: one write of the PC, of whatever value the target holds. -/
theorem jmpSetsPc : Obligations.JmpSetsPc :=
  fun t => ⟨rfl, runsFromItsBytes _, fun s =>
    ⟨s.setPc (s.x t), rfl, State.getReg_setReg_self s pcReg _, onlyRegs_setReg s pcReg _⟩⟩

/-! ## The relation of SKIP and BR (rules R66, R160) -/

section Relation
variable {c : Byte} {va vb : Word}

theorem isRelation_eq_true_iff :
    isRelation c = true ↔ c = 0x3D ∨ c = 0x21 ∨ c = 0x3E ∨ c = 0x3C := by
  simp [isRelation, or_assoc]

theorem relation_of_holds (h : RelationHolds c va vb) : relation c va vb = some true := by
  rcases h with ⟨rfl, h⟩ | ⟨rfl, h⟩ | ⟨rfl, h⟩ | ⟨rfl, h⟩
  · simp [relation, h]
  · simp [relation, h]
  · simpa [relation, BitVec.lt_def] using h
  · simpa [relation, BitVec.lt_def] using h

theorem relation_of_fails (hc : isRelation c = true) (h : ¬ RelationHolds c va vb) :
    relation c va vb = some false := by
  rcases isRelation_eq_true_iff.mp hc with rfl | rfl | rfl | rfl <;>
    simpa [relation, RelationHolds, BitVec.lt_def, BitVec.le_def] using h

theorem relation_of_no_selector (hc : isRelation c = false) : relation c va vb = none := by
  obtain ⟨hEq, hNe, hGt, hLt⟩ : c ≠ 0x3D ∧ c ≠ 0x21 ∧ c ≠ 0x3E ∧ c ≠ 0x3C := by
    simpa [isRelation, and_assoc] using hc
  rw [relation, if_neg hEq, if_neg hNe, if_neg hGt, if_neg hLt]

end Relation

/-! ## BR (rule R163) -/

/-- Settles O36: the model's relation is the unsigned one for the four selectors and has no value for any
other byte; a taken branch is one write of the PC, one not taken no write. -/
theorem brBranchesWhenRelationHolds : Obligations.BrBranchesWhenRelationHolds := by
  refine fun c a b t => ⟨rfl, runsFromItsBytes _, fun s => ⟨fun hc => ?_, fun hc => ?_⟩⟩
  · by_cases h : RelationHolds c (s.x a) (s.x b)
    · have hbr : exec (.br c a b t) s = .next (s.setPc (s.x t)) := by
        rw [exec, execBr, relation_of_holds h]
      exact ⟨_, hbr, onlyRegs_setReg s pcReg _, fun _ => State.getReg_setReg_self s pcReg _,
        fun hn => absurd h hn⟩
    · have hbr : exec (.br c a b t) s = .next s := by
        rw [exec, execBr, relation_of_fails hc h]
      exact ⟨_, hbr, onlyRegs_self _ s, fun hy => absurd hy h, fun _ => rfl⟩
  · have hbr : exec (.br c a b t) s = .next (raiseFault .invalidOpcode s) := by
      rw [exec, execBr, relation_of_no_selector hc]
    exact ⟨_, hbr, faultsWith_raiseFault .invalidOpcode s⟩

/-! ## SKIP (rules R90, R162) -/

/-- The frame of a skip: it moves the PC, or faults in one of the two ways of the decode phase. -/
theorem skipOne_frame (s : State) :
    OnlyRegs [pcReg] s (skipOne s) ∨ FaultsWith .bounds [pcReg] s (skipOne s) ∨
      FaultsWith .invalidOpcode [pcReg] s (skipOne s) := by
  rcases fetchInstr_cases s with ⟨i, h, -⟩ | ⟨k, h, -⟩ | ⟨op, h, -⟩ | ⟨d, m, h, -⟩
  · rw [skipOne_of_ready h]
    exact .inl (onlyRegs_setReg s pcReg _)
  · rw [skipOne_of_faulted h]
    exact .inr (.inl (faultsWith_raiseFault_fetched .bounds s k))
  · rw [skipOne_of_faulted h]
    exact .inr (.inr (faultsWith_raiseFault_fetched .invalidOpcode s 1))
  · rw [skipOne_of_faulted h]
    exact .inr (.inr (faultsWith_raiseFault_fetched .invalidOpcode s 3))

/-- Settles O37: the relation decides between no change and a skip, whose frame is that of the decode
phase. -/
theorem skipStepsOverWhenRelationFails : Obligations.SkipStepsOverWhenRelationFails := by
  refine fun c a b => ⟨rfl, runsFromItsBytes _, fun s =>
    ⟨fun _ h => ⟨s, ?_, onlyRegs_self [] s⟩, fun hc h => ⟨?_, skipOne_frame s⟩,
      fun hc => ⟨_, ?_, faultsWith_raiseFault .invalidOpcode s⟩⟩⟩
  · rw [exec, execSkip, relation_of_holds h]
  · rw [exec, execSkip, relation_of_fails hc h]
  · rw [exec, execSkip, relation_of_no_selector hc]

/-! ## CALL and RET (rules R164, R165) -/

section CallStack
variable {s : State}

theorem exec_call_of_room (h : s.depth < s.cfg.stackDepth) (t : Byte) :
    exec (.call t) s = .next ((s.push s.pc).setPc (s.x t)) := by
  have hroom : ¬ s.stackFull = true := by simpa [State.stackFull] using h
  rw [exec, execCall, if_neg hroom]

theorem exec_call_of_full (h : s.cfg.stackDepth ≤ s.depth) (t : Byte) :
    exec (.call t) s = .next (raiseFault .stackOverflow s) := by
  have hfull : s.stackFull = true := by simpa [State.stackFull] using h
  rw [exec, execCall, if_pos hfull]

theorem exec_ret_of_pos (h : 0 < s.depth) :
    exec .ret s = .next (s.pop.setPc (s.stackEntry (s.depth - 1))) := by
  rw [exec, execRet, if_neg h.ne']

theorem exec_ret_of_empty (h : s.depth = 0) :
    exec .ret s = .next (raiseFault .stackUnderflow s) := by
  rw [exec, execRet, if_pos h]

/-- A push with room on a well-formed stack writes the first dead entry and no other. -/
theorem State.stackOk.stackEntry_push (hs : s.stackOk) (h : s.depth < s.cfg.stackDepth) (v : Word)
    (k : Nat) : (s.push v).stackEntry k = if k = s.depth then v else s.stackEntry k := by
  obtain ⟨-, hlen, -⟩ := hs
  exact State.stackEntry_push s v (hlen ▸ h) k

end CallStack

/-- Settles O39: with room a call is a push of the PC and one write of the PC; a full stack faults before
either. -/
theorem callPushesReturnAddress : Obligations.CallPushesReturnAddress := by
  refine fun t => ⟨rfl, runsFromItsBytes _, fun s hs => ⟨fun hroom => ?_, fun hfull => ?_⟩⟩
  · have hentry := hs.stackEntry_push hroom s.pc
    obtain ⟨hregs, -⟩ := onlyRegs_setReg (s.push s.pc) pcReg (s.x t)
    refine ⟨_, exec_call_of_room hroom t, rfl, ?_, fun k hk => ?_, ?_, hregs, fun _ => rfl,
      ⟨rfl, rfl, rfl⟩, ⟨rfl, rfl, rfl⟩, rfl⟩
    · exact (hentry s.depth).trans (if_pos rfl)
    · exact (hentry k).trans (if_neg hk)
    · exact State.getReg_setReg_self _ pcReg _
  · exact ⟨_, exec_call_of_full hfull.ge t, faultsWith_raiseFault .stackOverflow s⟩

/-- Settles O40: a return is a pop, which leaves the entries, and one write of the PC; an empty stack
faults before either. -/
theorem retPopsReturnAddress : Obligations.RetPopsReturnAddress := by
  refine ⟨rfl, runsFromItsBytes _, fun s => ⟨fun hpos => ?_, fun hempty => ?_⟩⟩
  · obtain ⟨hregs, -⟩ := onlyRegs_setReg s.pop pcReg (s.stackEntry (s.depth - 1))
    exact ⟨_, exec_ret_of_pos hpos, Nat.sub_add_cancel hpos, State.getReg_setReg_self _ pcReg _, rfl,
      hregs, fun _ => rfl, ⟨rfl, rfl, rfl⟩, ⟨rfl, rfl, rfl⟩, rfl⟩
  · exact ⟨_, exec_ret_of_empty hempty, faultsWith_raiseFault .stackUnderflow s⟩

/-! ## Calls and returns are balanced (rules R164, R165) -/

theorem execAll_cons_of_next {p : Word} {i : Instr} {s t : State} {rest : List (Word × Instr)}
    (h : exec i (s.setPc p) = .next t) : execAll ((p, i) :: rest) s = execAll rest t := by
  rw [execAll, h]

/-- A call in a sequence of meanings: the entry it writes is the PC the sequence gave it. -/
theorem execAll_call {s : State} (hs : s.stackOk) (hroom : s.depth < s.cfg.stackDepth) (p : Word)
    (b : Byte) :
    ∃ u, (∀ rest, execAll ((p, .call b) :: rest) s = execAll rest u) ∧ u.stackOk ∧ u.cfg = s.cfg ∧
      u.depth = s.depth + 1 ∧ u.stackEntry s.depth = p ∧
      ∀ k, k < s.depth → u.stackEntry k = s.stackEntry k := by
  have hs' : (s.setPc p).stackOk := hs
  have hcall := exec_call_of_room (s := s.setPc p) hroom b
  have hentry := hs'.stackEntry_push hroom (s.setPc p).pc
  have hpc : (s.setPc p).pc = p := State.getReg_setReg_self s pcReg p
  refine ⟨_, fun _ => execAll_cons_of_next hcall, (exec_effect hcall).stackOk hs', rfl, rfl, ?_,
    fun k hk => ?_⟩
  · exact ((hentry s.depth).trans (if_pos rfl)).trans hpc
  · exact (hentry k).trans (if_neg hk.ne)

/-- Calls the stack has room for raise the depth by their number and keep every live entry. -/
theorem execAll_calls (calls : List (Word × Byte)) {s : State} (hs : s.stackOk)
    (hroom : s.depth + calls.length ≤ s.cfg.stackDepth) :
    ∃ t, (∀ rest, execAll (calls.map (fun c => (c.1, Instr.call c.2)) ++ rest) s = execAll rest t) ∧
      t.depth = s.depth + calls.length ∧ ∀ k, k < s.depth → t.stackEntry k = s.stackEntry k := by
  induction calls generalizing s with
  | nil => exact ⟨s, fun _ => rfl, rfl, fun _ _ => rfl⟩
  | cons c calls ih =>
    rw [List.length_cons] at hroom ⊢
    obtain ⟨u, hu, hus, hcfg, hdepth, -, hlive⟩ := execAll_call hs (by omega) c.1 c.2
    obtain ⟨t, ht, htdepth, htlive⟩ := ih hus (by rw [hcfg]; omega)
    refine ⟨t, fun rest => (hu _).trans (ht rest), by omega, fun k hk => ?_⟩
    rw [htlive k (by omega), hlive k hk]

/-- A return in a sequence of meanings. -/
theorem execAll_ret {s : State} (hpos : 0 < s.depth) (r : Word) :
    ∃ u, (∀ rest, execAll ((r, .ret) :: rest) s = execAll rest u) ∧ u.depth + 1 = s.depth ∧
      u.pc = s.stackEntry (s.depth - 1) ∧ ∀ k, u.stackEntry k = s.stackEntry k := by
  have hret := exec_ret_of_pos (s := s.setPc r) hpos
  exact ⟨_, fun _ => execAll_cons_of_next hret, Nat.sub_add_cancel hpos,
    State.getReg_setReg_self _ pcReg _, fun _ => rfl⟩

/-- Returns come back to the address that the entry at the depth they reach holds. -/
theorem execAll_rets {base : Nat} (r : Word) (rets : List Word) {s : State}
    (hd : s.depth = base + (rets.length + 1)) :
    ∃ t, execAll ((r :: rets).map (fun r => (r, Instr.ret))) s = .next t ∧ t.depth = base ∧
      t.pc = s.stackEntry base := by
  induction rets generalizing r s with
  | nil =>
    obtain ⟨u, hu, hdepth, hpc, -⟩ := execAll_ret (s := s) (by omega) r
    rw [hd] at hdepth hpc
    exact ⟨u, hu [], Nat.succ.inj hdepth, hpc⟩
  | cons r' rets ih =>
    obtain ⟨u, hu, hdepth, -, hentries⟩ := execAll_ret (s := s) (by omega) r
    rw [List.length_cons] at hd
    obtain ⟨t, ht, htdepth, htpc⟩ := ih (s := u) r' (by omega)
    exact ⟨t, (hu _).trans ht, htdepth, htpc.trans (hentries base)⟩

/-- Settles O41: the outermost call writes its return address at the depth it starts from, the calls
inside it keep that entry, and the last return reads it. -/
theorem nestedCallsThenReturnsBalance : Obligations.NestedCallsThenReturnsBalance := by
  intro s p b calls rets hs hroom hlen
  obtain ⟨r, rets, rfl⟩ := List.exists_cons_of_length_eq_add_one hlen
  have hlen' : rets.length = calls.length := Nat.succ.inj hlen
  obtain ⟨u, hu, hus, hcfg, hdepth, htop, -⟩ := execAll_call hs (by omega) p b
  obtain ⟨v, hv, hvdepth, hvlive⟩ := execAll_calls calls hus (by rw [hcfg]; omega)
  obtain ⟨t, ht, htdepth, htpc⟩ := execAll_rets (base := s.depth) (s := v) r rets (by omega)
  refine ⟨t, (hu _).trans ((hv _).trans ht), ?_, htdepth, fun h0 => ?_⟩
  · rw [htpc, hvlive s.depth (by omega), htop]
  · exact ⟨_, exec_ret_of_empty (htdepth.trans h0), rfl, rfl⟩

/-! ## LABEL (rule R166) -/

/-- Settles O42: one write of the destination, of the PC as the fetch left it. -/
theorem labelCapturesNextAddress : Obligations.LabelCapturesNextAddress :=
  fun d => ⟨rfl, runsFromItsBytes _, fun s =>
    ⟨s.setX d s.pc, rfl, s.x_setX_self d s.pc, onlyRegs_setReg s (reg d) s.pc⟩⟩

/-! ## BLK and END (rules R167 to R169) -/

section Scan
variable {s : State} {l : Byte} {start k : Nat}

theorem State.scan_of_no_marker (h : ∀ k, start ≤ k → ¬ MarkerAt s l k) : s.scan start l = none := by
  cases hscan : s.scan start l with
  | none => rfl
  | some k =>
    obtain ⟨hk, hsize, hclose, hlabel, -⟩ := scanFrom_some hscan
    exact absurd ⟨hsize, hclose, hlabel⟩ (h k hk)

/-- The scan finds the first marker. -/
theorem State.scan_of_first_marker (hk : start ≤ k) (hm : MarkerAt s l k)
    (hfirst : ∀ j, start ≤ j → j < k → ¬ MarkerAt s l j) : s.scan start l = some k := by
  obtain ⟨hsize, hmarker⟩ := hm
  cases hscan : s.scan start l with
  | none =>
    exact absurd hmarker (scanFrom_none hscan (by omega) k hk hsize)
  | some m =>
    obtain ⟨hsm, hmsize, hclose, hlabel, hbefore⟩ := scanFrom_some hscan
    have hnlt : ¬ m < k := fun hlt => hfirst m hsm hlt ⟨hmsize, hclose, hlabel⟩
    have hngt : ¬ k < m := fun hgt => hbefore k hk hgt hmarker
    exact congrArg some (by omega)

end Scan

/-- Settles O43: the scan finds the first marker or none; the label register is written before the PC, so
that a label that names the PC loses its value, and before the fault. -/
theorem blkJumpsPastFirstMarker : Obligations.BlkJumpsPastFirstMarker := by
  refine fun l => ⟨rfl, runsFromItsBytes _, fun s => ⟨fun k hk hm hfirst => ?_, fun hnone => ?_⟩⟩
  · have hblk : exec (.blk l) s =
        .next ((s.setX l s.pc).setPc (BitVec.ofNat 32 (k + 2))) := by
      rw [exec, execBlk, State.scan_of_first_marker hk hm hfirst]
    refine ⟨_, hblk, fun hlt => ?_, fun hl => ?_, ?_⟩
    · have hpc : ((s.setX l s.pc).setPc (BitVec.ofNat 32 (k + 2))).pc = BitVec.ofNat 32 (k + 2) :=
        State.getReg_setReg_self _ pcReg _
      rw [hpc, BitVec.toNat_ofNat, Nat.mod_eq_of_lt hlt]
    · exact (State.getReg_setReg_ne _ pcReg _ hl).trans (s.x_setX_self l s.pc)
    · exact ((onlyRegs_self _ s).setReg (by simp) s.pc).setReg (by simp) _
  · have hblk : exec (.blk l) s = .next (raiseFault .invalidProgram (s.setX l s.pc)) := by
      rw [exec, execBlk, State.scan_of_no_marker hnone]
    exact ⟨_, hblk, s.x_setX_self l s.pc, (onlyRegs_setReg s (reg l) s.pc).faultsWith _⟩

/-- Settles O45: the label byte is an operand of the fetch alone. -/
theorem endMarkerIsNoOp : Obligations.EndMarkerIsNoOp :=
  fun _ => ⟨rfl, runsFromItsBytes _, fun s => ⟨s, rfl, onlyRegs_self [] s⟩⟩

end Sys2Proof.Machine

/-! PROOFS. Terminate and no-op (spec 45_terminate.md): the clean halt and the six whitespace bytes. -/

namespace Sys2Proof.Machine

/-! ## HALT (rules R28, R190) -/

/-- A recorded code comes with the halt, so a CORE that is not halted has none (rule R28). -/
theorem State.statusOk.code_eq_noFault {s : State} (hs : s.statusOk) (hh : s.halted = false) :
    s.code = .noFault := by
  obtain ⟨hhalted, -⟩ := hs
  by_contra hc
  rw [hhalted hc] at hh
  cases hh

/-- Settles O46: the clean halt sets the flag alone, so the code is the one before it, which is `NONE`
where the CORE was running. -/
theorem haltIsClean : Obligations.HaltIsClean :=
  ⟨rfl, runsFromItsBytes .halt, fun s => ⟨s.halt, rfl, s.halt_halted, s.halt_code,
    fun hs hh => s.halt_code.trans (hs.code_eq_noFault hh), s.halt_hostTerminated,
    fun r _ => s.halt_getReg r, fun _ => rfl, ⟨s.halt_stack, s.halt_depth⟩,
    ⟨s.halt_ports, s.halt_hookCalls, s.halt_hostAnswers⟩, s.halt_cfg⟩⟩

/-! ## The whitespace bytes (rules R65, R191) -/

/-- Settles O47: each of the six is the byte of an instruction whose meaning is `noOperation`, which ends
in the state it starts from. -/
theorem whitespaceIsNoOp : Obligations.WhitespaceIsNoOp := by
  intro i op hi
  have hnop : encode i = [op] ∧ ∀ s, exec i s = noOperation s := by
    simp only [List.mem_cons, Prod.mk.injEq, List.not_mem_nil, or_false] at hi
    rcases hi with ⟨rfl, rfl⟩ | ⟨rfl, rfl⟩ | ⟨rfl, rfl⟩ | ⟨rfl, rfl⟩ | ⟨rfl, rfl⟩ | ⟨rfl, rfl⟩ <;>
      exact ⟨rfl, fun _ => rfl⟩
  obtain ⟨hbyte, hexec⟩ := hnop
  exact ⟨hbyte, runsFromItsBytes i, fun s => ⟨s, hexec s, onlyRegs_self [] s⟩⟩

end Sys2Proof.Machine

/-! PROOFS. Exceptions (spec 60_exceptions.md): which commands leave a stopped CORE, and the state a host
that ends the run inside a hook leaves. -/

namespace Sys2Proof.Machine

/-! ## The commands that start a new run (rules R206, R215) -/

/-- The status is clear and the PC is 0, so a run starts here. -/
def State.StartsRun (t : State) : Prop :=
  t.halted = false ∧ t.code = .noFault ∧ t.hostTerminated = false ∧ t.stopped = false ∧ t.pc = 0

theorem State.pc_of_regs_clear {t : State} (h : t.regs = Vector.replicate 128 0) : t.pc = 0 := by
  rw [State.pc, State.getReg, h]
  exact Vector.getElem_replicate _

/-- INIT answers for a buffer whose size is a power of two, with the initial state of that buffer. -/
theorem cmdInit_eq_next {s t : State} {buffer : List Byte} (h : cmdInit buffer s = .next t) :
    ∃ k : Fin 33, 2 ^ k.val = buffer.length ∧
      t = { State.initial { s.cfg with memLog2 := k } (Memory.writeBytes [] 0 buffer) with
        hookCalls := s.hookCalls, hostAnswers := s.hostAnswers } := by
  unfold cmdInit at h
  split at h
  · cases h
  next k hk => exact ⟨k, bufferLog2_some hk, (Host.Outcome.next.inj h).symm⟩

theorem cmdInit_startsRun {s t : State} {buffer : List Byte} (h : cmdInit buffer s = .next t) :
    t.StartsRun := by
  obtain ⟨k, -, rfl⟩ := cmdInit_eq_next h
  exact ⟨rfl, rfl, rfl, rfl, State.pc_of_regs_clear rfl⟩

theorem cmdLoad_startsRun {s t : State} {bytes : List Byte} (h : cmdLoad bytes s = .next t) :
    t.StartsRun := by
  cases h
  exact ⟨rfl, rfl, rfl, rfl, State.getReg_setReg_self _ pcReg 0⟩

theorem cmdReset_startsRun {s t : State} (h : cmdReset s = .next t) : t.StartsRun := by
  cases h
  exact ⟨rfl, rfl, rfl, rfl, State.pc_of_regs_clear rfl⟩

/-- Settles O8: a STEP of a stopped CORE answers the state it is given, and each of the other three
commands starts a new run from any state. -/
theorem onlyCommandsLeaveTheHaltedState : Obligations.OnlyCommandsLeaveTheHaltedState := by
  refine fun c s t h => ⟨?_, fun hc => ?_⟩
  · rintro rfl hstopped
    have hstep : step s = .next s := step_of_stopped hstopped
    exact Host.Outcome.next.inj (h.symm.trans hstep)
  · cases c with
    | init buffer => exact cmdInit_startsRun h
    | load bytes => exact cmdLoad_startsRun h
    | reset => exact cmdReset_startsRun h
    | step => exact absurd rfl hc

/-! ## Host termination inside a hook (rule R214) -/

/-- A run ended from a state that differs from `s` in the ports alone is over, and nothing but the ports
is new in it. -/
theorem terminate_keeps_state_at_call {s u : State} {bank : Ports} (hframe : OnlyRegsAndPorts [] s u)
    (hbank : u.ports = bank) :
    u.terminate.hostTerminated = true ∧ step u.terminate = .next u.terminate ∧
      u.terminate.ports = bank ∧ u.terminate.halted = s.halted ∧ u.terminate.code = s.code ∧
      SameRegsBut [] s u.terminate ∧ SameMemory s u.terminate ∧ SameStack s u.terminate ∧
      u.terminate.cfg = s.cfg := by
  obtain ⟨hregs, hmem, hstack, ⟨hhalted, hcode, -⟩, hcfg⟩ := hframe
  obtain ⟨-, hidle⟩ := stepOfStoppedCoreChangesNothing
  exact ⟨rfl, hidle u.terminate rfl, hbank, hhalted, hcode, hregs, hmem, hstack, hcfg⟩

/-- Settles O33: IN ends the run before it writes its destination, and OUT after it wrote its port. -/
theorem hostTerminationKeepsStateAtCall : Obligations.HostTerminationKeepsStateAtCall := by
  refine ⟨fun _ _ => ⟨rfl, runsFromItsBytes _⟩, fun _ _ => ⟨rfl, runsFromItsBytes _⟩,
    fun s q p hq => ⟨fun d hs hterm => ?_, fun v written he hw hterm => ?_⟩⟩
  · exact ⟨_, exec_inp_of_terminates hq hs hterm,
      terminate_keeps_state_at_call (onlyRegsAndPorts_of_eq rfl) rfl⟩
  · exact ⟨_, exec_out_of_terminates hq he hw hterm,
      terminate_keeps_state_at_call (onlyRegsAndPorts_of_eq rfl) (State.setPort_ports_eq hw)⟩

end Sys2Proof.Machine

/-! PROOFS. Reset and the control commands (spec 70_reset_and_hazards.md): what INIT, LOAD and RESET leave,
and the block scan that ends at the top of the address space (spec 44_control.md). -/

namespace Sys2Proof.Machine

/-! ## Clear registers and ports (rules R230, R232, R233) -/

theorem State.getReg_of_regs_clear {t : State} (h : t.regs = Vector.replicate 128 0) (r : Fin 128) :
    t.getReg r = 0 := by
  rw [State.getReg, h]
  exact Vector.getElem_replicate _

theorem State.getPort_of_ports_clear {t : State} (h : t.ports = Vector.replicate 256 0) (q : Byte) :
    t.getPort q = 0 := by
  simp only [State.getPort, h]
  exact Vector.getElem_replicate _

/-- Settles O1: `State.reset` is an initial state, whose two banks are filled with 0. -/
theorem resetStateIsClear : Obligations.ResetStateIsClear :=
  ⟨State.getReg_of_regs_clear rfl, State.getPort_of_ports_clear rfl, rfl, rfl, rfl, rfl⟩

/-! ## Bytes copied from address 0 on (rules R230, R231) -/

section Copy
variable {m : Memory} {bs : List Byte} {n : Nat}

theorem Memory.read_writeBytes_zero_of_getElem? (hm : m.wf) {b : Byte} (hb : bs[n]? = some b) :
    (m.writeBytes 0 bs).read n = b := by
  rw [Memory.read_writeBytes hm, if_pos (Nat.zero_le n), Nat.sub_zero, hb, Option.getD_some]

theorem Memory.read_writeBytes_zero_of_length_le (hm : m.wf) (hn : bs.length ≤ n) :
    (m.writeBytes 0 bs).read n = m.read n := by
  rw [Memory.read_writeBytes hm, if_pos (Nat.zero_le n), Nat.sub_zero,
    List.getElem?_eq_none hn, Option.getD_none]

end Copy

/-! ## INIT (rule R230) -/

/-- A power of two has one exponent, so the search finds the only one there is. -/
theorem bufferLog2_eq_some_iff {n : Nat} {k : Fin 33} : bufferLog2 n = some k ↔ 2 ^ k.val = n := by
  refine ⟨bufferLog2_some, fun hk => ?_⟩
  cases hfound : bufferLog2 n with
  | none =>
    have hmiss := List.find?_eq_none.mp hfound k (List.mem_finRange k)
    exact absurd (beq_iff_eq.mpr hk) hmiss
  | some j =>
    have hpow : 2 ^ j.val = 2 ^ k.val := (bufferLog2_some hfound).trans hk.symm
    exact congrArg some (Fin.ext (Nat.pow_right_injective (Nat.le_refl 2) hpow))

theorem bufferLog2_eq_none {n : Nat} (h : ∀ k, k ≤ 32 → n ≠ 2 ^ k) : bufferLog2 n = none := by
  refine Option.eq_none_iff_forall_ne_some.mpr fun k hk => ?_
  exact h k.val (Nat.le_of_lt_succ k.isLt) (bufferLog2_some hk).symm

/-- INIT of a buffer of `2^k` bytes answers the initial state of that buffer. -/
theorem cmdInit_of_length {buffer : List Byte} {k : Fin 33} (hk : 2 ^ k.val = buffer.length)
    (s : State) : cmdInit buffer s =
      .next { State.initial { s.cfg with memLog2 := k } (Memory.writeBytes [] 0 buffer) with
        hookCalls := s.hookCalls, hostAnswers := s.hostAnswers } := by
  rw [cmdInit, bufferLog2_eq_some_iff.mpr hk]

/-- Settles O5: the search finds the exponent of a power of two and nothing for another size, and the
buffer's bytes are written over a memory that lists none. -/
theorem initBindsBufferAndClearsState : Obligations.InitBindsBufferAndClearsState := by
  refine fun s buffer => ⟨fun k hle hlen => ?_, fun hsize => ?_⟩
  · have hk : 2 ^ (⟨k, Nat.lt_succ_of_le hle⟩ : Fin 33).val = buffer.length := hlen.symm
    exact ⟨_, cmdInit_of_length hk s, hk,
      fun _ _ hb => Memory.read_writeBytes_zero_of_getElem? ⟨.nil, nofun⟩ hb,
      State.getReg_of_regs_clear rfl, State.getPort_of_ports_clear rfl,
      rfl, rfl, rfl, rfl, rfl, rfl⟩
  · rw [cmdInit, bufferLog2_eq_none hsize]

/-! ## LOAD and RESET (rules R231, R232) -/

/-- Settles O6: the bytes that fit are written from address 0 on, over a canonical memory, and the PC is
the one register written. -/
theorem loadCopiesProgramAndRestarts : Obligations.LoadCopiesProgramAndRestarts := by
  rintro s bytes ⟨hwf, -⟩
  refine ⟨_, rfl, fun n b hn hb => ?_, fun a ha => ?_, State.getReg_setReg_self _ pcReg 0, rfl, rfl,
    fun r hr => ?_, ⟨rfl, rfl⟩, ⟨rfl, rfl, rfl⟩, rfl⟩
  · have hkept : (bytes.take s.memSize)[n]? = some b := (List.getElem?_take_of_lt hn).trans hb
    exact Memory.read_writeBytes_zero_of_getElem? hwf hkept
  · have hpast : (bytes.take s.memSize).length ≤ a := by rwa [List.length_take, Nat.min_comm]
    exact Memory.read_writeBytes_zero_of_length_le hwf hpast
  · exact State.getReg_setReg_ne _ pcReg 0 (List.ne_of_not_mem_cons hr)

/-- Settles O7: RESET fills the two banks with 0 and writes neither memory nor the stack entries. -/
theorem resetCommandKeepsMemory : Obligations.ResetCommandKeepsMemory :=
  fun _ => ⟨_, rfl, State.getReg_of_regs_clear rfl, State.getPort_of_ports_clear rfl,
    rfl, rfl, rfl, rfl, fun _ => rfl, rfl⟩

/-! ## BLK at the top of the address space (rules R167, R168) -/

theorem exec_blk_of_first_marker {s : State} {l : Byte} {k : Nat} (hk : s.pc.toNat ≤ k)
    (hm : MarkerAt s l k) (hfirst : ∀ j, s.pc.toNat ≤ j → j < k → ¬ MarkerAt s l j) :
    exec (.blk l) s = .next ((s.setX l s.pc).setPc (BitVec.ofNat 32 (k + 2))) := by
  rw [exec, execBlk, State.scan_of_first_marker hk hm hfirst]

/-- Settles O44: the address after the marker is 2^32, which as a word is 0 (log 15). -/
theorem blkMarkerAtTopOfAddressSpace : Obligations.BlkMarkerAtTopOfAddressSpace := by
  intro s l k hk hm htop hfirst
  refine ⟨_, exec_blk_of_first_marker hk hm hfirst, ?_, ?_⟩
  · calc ((s.setX l s.pc).setPc (BitVec.ofNat 32 (k + 2))).pc
      _ = BitVec.ofNat 32 (k + 2) := State.getReg_setReg_self _ pcReg _
      _ = 0 := by rw [htop]; rfl
  · exact ((onlyRegs_self _ s).setReg (by simp) s.pc).setReg (by simp) _

end Sys2Proof.Machine
